-- ==== Sys2Proof/Word.lean ====
section
/-! DEFINITION. The word types of the hardware: bytes, 16-bit words and register indices. -/

namespace Sys2Proof

/-- An unsigned 8-bit value: a memory cell or a general register (R21, R46). -/
abbrev Byte := BitVec 8

/-- An unsigned 16-bit value: an opcode, the program counter or the index register (R27, R28, R70). -/
abbrev Word := BitVec 16

/-- A register index, 0 to 15 (R24: typed as `Fin 16`). -/
abbrev RegIdx := Fin 16

end Sys2Proof
end

