-- ==== Sys2Proof/Syntax.lean ====
section
/-! DEFINITION. The decoded instruction (R18) and the four mnemonics of the opcode table. -/

namespace Sys2Proof

/-- The decoded instruction: one constructor per mnemonic of the opcode table (R18, R80).
The table's 28 rows named UNIMPL are the one constructor `unimpl`, whose opcode says which row it is (R18, R79;
log entry 6). -/
inductive Instr where
  /-- `6XNN`, LD_IMM: load immediate (R110). -/
  | ldImm (x : RegIdx) (nn : Byte)
  /-- `7XNN`, ADD_IMM: add immediate, no flag (R111). -/
  | addImm (x : RegIdx) (nn : Byte)
  /-- `8XY4`, ADD_REG: add registers, carry into VF (R122). -/
  | addReg (x y : RegIdx)
  /-- Every other opcode, carried whole (R97, R125). -/
  | unimpl (op : Word)
deriving DecidableEq, Repr

/-- The mnemonics of the opcode table. -/
inductive Mnemonic where
  | ldImm | addImm | addReg | unimpl
deriving DecidableEq, Repr

/-- The mnemonic an instruction stands under in the opcode table. -/
def Instr.mnemonic : Instr → Mnemonic
  | .ldImm _ _ => .ldImm
  | .addImm _ _ => .addImm
  | .addReg _ _ => .addReg
  | .unimpl _ => .unimpl

end Sys2Proof
end

