-- ==== Sys2Proof/WellFormed.lean ====
section
/-! DEFINITION. Which instruction terms some opcode stands for: an `unimpl` term must not carry an opcode of an
implemented pattern.  Register indices and immediates are in range by their types (R24, R75). -/

namespace Sys2Proof

/-- The opcode is of the pattern `6XNN`: match 0x6000 under mask 0xF000 (R110). -/
def isLdImmWord (op : Word) : Bool := op &&& 0xF000#16 == 0x6000#16

/-- The opcode is of the pattern `7XNN`: match 0x7000 under mask 0xF000 (R111). -/
def isAddImmWord (op : Word) : Bool := op &&& 0xF000#16 == 0x7000#16

/-- The opcode is of the pattern `8XY4`: match 0x8004 under mask 0xF00F (R122). -/
def isAddRegWord (op : Word) : Bool := op &&& 0xF00F#16 == 0x8004#16

/-- An instruction term is well formed when it is the decoding of some opcode (R18, R79): an `unimpl` term
carries an opcode that none of the three implemented patterns matches. -/
def Instr.wellFormed : Instr → Bool
  | .ldImm _ _ => true
  | .addImm _ _ => true
  | .addReg _ _ => true
  | .unimpl op => !isLdImmWord op && !isAddImmWord op && !isAddRegWord op

end Sys2Proof
end

