-- ==== Sys2Proof/Decode.lean ====
section
/-! DEFINITION. The fields of an opcode (R72), the decoder (R80), the encoder (R83), the opcode table as data (R79), and the
decoder on bytes. -/

namespace Sys2Proof

/-! ### Fields (R72) -/

/-- `class`, `op[15:12]`: the first-level dispatch key. -/
def opClass (op : Word) : BitVec 4 := op.extractLsb' 12 4

/-- `X`, `op[11:8]`: a register index. -/
def opX (op : Word) : RegIdx := (op.extractLsb' 8 4).toFin

/-- `Y`, `op[7:4]`: a register index. -/
def opY (op : Word) : RegIdx := (op.extractLsb' 4 4).toFin

/-- `N`, `op[3:0]`: the second-level dispatch key of class 0x8. -/
def opN (op : Word) : BitVec 4 := op.extractLsb' 0 4

/-- `NN`, `op[7:0]`: the immediate byte. -/
def opNN (op : Word) : Byte := op.extractLsb' 0 8

/-- `NNN`, `op[11:0]`: extracted from every opcode (R73); no implemented instruction uses it (R74, R75). -/
def opNNN (op : Word) : BitVec 12 := op.extractLsb' 0 12

/-! ### The decoder (R80) -/

/-- The second level of class 0x8, keyed by `N` (R78, R121). -/
def decodeClass8 (op : Word) : Instr :=
  match opN op with
  | 0x4#4 => .addReg (opX op) (opY op)
  | _ => .unimpl op

/-- The decoder: total, from the opcode alone; an unrecognised opcode is the value `unimpl op` (R77, R80, R81). -/
def decode (op : Word) : Instr :=
  match opClass op with
  | 0x6#4 => .ldImm (opX op) (opNN op)
  | 0x7#4 => .addImm (opX op) (opNN op)
  | 0x8#4 => decodeClass8 op
  | _ => .unimpl op

/-! ### The encoder, from the encoding strings of the opcode table (R74, R83) -/

/-- The opcode of an instruction: `0110xxxxnnnnnnnn`, `0111xxxxnnnnnnnn`, `1000xxxxyyyy0100`, or the raw word. -/
def encode : Instr → Word
  | .ldImm x nn => 0x6#4 ++ BitVec.ofFin (w := 4) x ++ nn
  | .addImm x nn => 0x7#4 ++ BitVec.ofFin (w := 4) x ++ nn
  | .addReg x y => 0x8#4 ++ BitVec.ofFin (w := 4) x ++ BitVec.ofFin (w := 4) y ++ 0x4#4
  | .unimpl op => op

/-! ### Bytes: big-endian, the byte at the lower address the most significant (R56, R71) -/

/-- `op = (hi << 8) | lo` (R71, R93). -/
def assemble (hi lo : Byte) : Word := hi ++ lo

/-- The byte at the lower address: `op[15:8]`. -/
def opHi (op : Word) : Byte := op.extractLsb' 8 8

/-- The byte at the higher address: `op[7:0]`. -/
def opLo (op : Word) : Byte := op.extractLsb' 0 8

/-- An opcode as memory holds it. -/
def opBytes (op : Word) : List Byte := [opHi op, opLo op]

/-- Why a byte list holds no instruction: it ends before the opcode's second byte.  Decoding an opcode itself never
fails (R81). -/
inductive DecodeReject where
  /-- Fewer than the two bytes of an opcode (R70). -/
  | truncated
deriving DecidableEq, Repr

/-- The decoder on bytes: the first instruction and the bytes after it. -/
def decodeBytes : List Byte → Except DecodeReject (Instr × List Byte)
  | hi :: lo :: rest => .ok (decode (assemble hi lo), rest)
  | _ => .error .truncated

/-- The one 16-bit word of a table row, bit 0 the least significant; bits at or above `nbits` are 0. -/
def tableWord (nbits w : Nat) : Word := BitVec.ofNat 16 (w % 2 ^ nbits)

/-- What the decoder reads from an instruction whose bits are `w` in the opcode table's numbering, its word laid out
big-endian. -/
def decodeTableWord (nbits w : Nat) : Option Instr :=
  match decodeBytes (opBytes (tableWord nbits w)) with
  | .ok (i, _) => some i
  | .error _ => none

/-! ### The opcode table (R79) -/

/-- A row of `opcode_table.json`: an opcode `op` is of the row when `op &&& mask = pattern`. -/
structure OpcodeRow where
  mask : Word
  pattern : Word
  mnemonic : Mnemonic
deriving DecidableEq, Repr

/-- Whether an opcode is of a row. -/
def OpcodeRow.covers (r : OpcodeRow) (op : Word) : Bool := op &&& r.mask == r.pattern

/-- The three implemented rows. -/
def implementedRows : List OpcodeRow :=
  [⟨0xF000, 0x6000, .ldImm⟩, ⟨0xF000, 0x7000, .addImm⟩, ⟨0xF00F, 0x8004, .addReg⟩]

/-- The 13 UNIMPL rows of the classes other than 6, 7 and 8. -/
def unimplClassRows : List OpcodeRow :=
  [⟨0xF000, 0x0000, .unimpl⟩, ⟨0xF000, 0x1000, .unimpl⟩, ⟨0xF000, 0x2000, .unimpl⟩,
   ⟨0xF000, 0x3000, .unimpl⟩, ⟨0xF000, 0x4000, .unimpl⟩, ⟨0xF000, 0x5000, .unimpl⟩,
   ⟨0xF000, 0x9000, .unimpl⟩, ⟨0xF000, 0xA000, .unimpl⟩, ⟨0xF000, 0xB000, .unimpl⟩,
   ⟨0xF000, 0xC000, .unimpl⟩, ⟨0xF000, 0xD000, .unimpl⟩, ⟨0xF000, 0xE000, .unimpl⟩,
   ⟨0xF000, 0xF000, .unimpl⟩]

/-- The 15 UNIMPL rows of class 0x8, one for each `N` other than 4. -/
def unimplClass8Rows : List OpcodeRow :=
  [⟨0xF00F, 0x8000, .unimpl⟩, ⟨0xF00F, 0x8001, .unimpl⟩, ⟨0xF00F, 0x8002, .unimpl⟩,
   ⟨0xF00F, 0x8003, .unimpl⟩, ⟨0xF00F, 0x8005, .unimpl⟩, ⟨0xF00F, 0x8006, .unimpl⟩,
   ⟨0xF00F, 0x8007, .unimpl⟩, ⟨0xF00F, 0x8008, .unimpl⟩, ⟨0xF00F, 0x8009, .unimpl⟩,
   ⟨0xF00F, 0x800A, .unimpl⟩, ⟨0xF00F, 0x800B, .unimpl⟩, ⟨0xF00F, 0x800C, .unimpl⟩,
   ⟨0xF00F, 0x800D, .unimpl⟩, ⟨0xF00F, 0x800E, .unimpl⟩, ⟨0xF00F, 0x800F, .unimpl⟩]

/-- The 31 rows of `opcode_table.json`, in the table's order. -/
def opcodeTable : List OpcodeRow := implementedRows ++ unimplClassRows ++ unimplClass8Rows

end Sys2Proof
end

