-- ==== Sys2Proof/Config.lean ====
section
/-! DEFINITION. The fixed parameters of the hardware (R8) and the one reset choice of the model. -/

namespace Sys2Proof.Config

/-- The number of memory cells: addresses 0x000 to 0xFFF (R8, R45). -/
def memSize : Nat := 4096

/-- `PC` after `initialize()` (R8, R155, R160). -/
def resetPc : Word := 0x200#16

/-- What an address that memory does not list reads as.
DESIGN CHOICE (unsafe), log entry 1: the spec leaves the contents at construction to the open parameter
`MEM_INIT` (R9, R159, D10).  Any other `MEM_INIT` is `State.construct`'s argument. -/
def unlistedByte : Byte := 0#8

end Sys2Proof.Config
end

