-- ==== Sys2Proof/Machine/State.lean ====
section
/-! DEFINITION. The architectural state (R36), the statuses a transaction reports (R100, R135), the reasons a step can
stop, and the state after reset (R156). -/

namespace Sys2Proof.Machine

/-- Memory: address and byte pairs in one canonical form (`Memory.wf`); an address that is not listed reads as
`Config.unlistedByte`. -/
abbrev Memory := List Host.Cell

/-- The canonical form: addresses strictly rising, every address a cell of the 4096 (R45), and no entry equal to what an
unlisted address reads as, so that equal memories are equal lists. -/
abbrev Memory.wf (m : Memory) : Prop :=
  m.Pairwise (fun c d => c.1 < d.1) ∧ ∀ c ∈ m, c.1 < Config.memSize ∧ c.2 ≠ Config.unlistedByte

/-- The status of a transaction: a step's success and the three error conditions (R100, R135). -/
inductive Status where
  /-- The step ran an implemented opcode (R139). -/
  | executed (op : Word) (instr : Instr)
  /-- An access at an address that is not in 0..4095 (R136). -/
  | addressOutOfRange (addr : Nat)
  /-- The step fetched an opcode with no handler (R138). -/
  | unimplementedOpcode (op : Word)
  /-- A bulk load would extend past address 4095 (R137). -/
  | loadOverflow (start len : Nat)
deriving DecidableEq, Repr

/-- The codes of R135, 2 bits wide (D3). -/
def Status.code : Status → BitVec 2
  | .executed _ _ => 0
  | .addressOutOfRange _ => 1
  | .unimplementedOpcode _ => 2
  | .loadOverflow _ _ => 3

/-- The name of a register (R20, R27, R28). -/
inductive Reg where
  | v (x : RegIdx)
  | i
  | pc
deriving DecidableEq, Repr

/-- What ends an operation with nothing changed: the two conditions of the block that do so (R140), and the model's own
fault of R158.  UnimplementedOpcode is none of them: it is reported by a step that completes (R97, C4). -/
inductive Fault where
  /-- Raised by the memory read port and the host's byte accesses, for an address at or above 4096, which the spec says is
  not memory (R47, R61, R136).  In a step only the fetch raises it (R92).  Safe: the spec ends the operation there and
  leaves the state as it was (log entry 3). -/
  | addressOutOfRange (addr : Nat)
  /-- Raised by the host's bulk load only, never by a step (R54, R137).  Safe: nothing is written. -/
  | loadOverflow (start len : Nat)
  /-- Raised by a step or a host register read that reads a register which neither `initialize()` nor a write has set since
  construction (R158, D9, U3).  A fault of the model, no condition of the block (R135).  Safe: a program run without
  `initialize()` gets no meaning there; no run from `State.reset` meets it (log entry 2). -/
  | unwrittenRegister (r : Reg)
deriving DecidableEq, Repr

/-- The status that reports a fault, for a condition of the block (R135); a fault of the model has none. -/
def Fault.status : Fault → Option Status
  | .addressOutOfRange addr => some (.addressOutOfRange addr)
  | .loadOverflow start len => some (.loadOverflow start len)
  | .unwrittenRegister _ => none

/-- The reasons an instruction has no meaning in the model. -/
inductive Refusal where
  /-- Raised by an arm of `exec` whose instruction has no meaning yet.  No arm does: every opcode has one.  Safe. -/
  | notModelled (mnemonic : String)
deriving DecidableEq, Repr

/-- Which registers have been set since construction, by `initialize()` or by a write (R158). -/
structure Written where
  v : Vector Bool 16
  i : Bool
  pc : Bool
deriving DecidableEq, Repr

/-- Every register has been set: so it is after `initialize()` (R155). -/
def Written.all : Written := ⟨Vector.replicate 16 true, true, true⟩

/-- No register has been set: so it is after construction (R158). -/
def Written.none : Written := ⟨Vector.replicate 16 false, false, false⟩

/-- The whole architectural state (R36), with the marks of the registers that have been set (R158) and the model's record
of the statuses reported (R153). -/
structure State where
  /-- The sixteen general registers `V0` .. `VF` (R20, R21). -/
  v : Vector Byte 16
  /-- The index register `I` (R27). -/
  i : Word
  /-- The program counter `PC` (R28). -/
  pc : Word
  /-- The memory (R45). -/
  mem : Memory
  /-- Which registers hold a value the spec gives them: the unwritten state of R158 (log entry 2). -/
  written : Written
  /-- The statuses reported so far, newest first: the model's own record, no register of the block (R33, R153; log
  entry 4). -/
  history : List Status
deriving DecidableEq, Repr

/-- The state after `initialize()` (R156) over memory with nothing listed and nothing reported yet (log entries 1
and 4). -/
def State.reset : State where
  v := Vector.replicate 16 0#8
  i := 0#16
  pc := Config.resetPc
  mem := []
  written := Written.all
  history := []

end Sys2Proof.Machine
end

