-- ==== Sys2Proof/Machine/Ops.lean ====
section
/-! DEFINITION. The named operations over registers and memory, the fetch, the report of a status, and `initialize()`. -/

namespace Sys2Proof.Machine

/-! ### Registers (R20, R38): the one place where each is read and written -/

/-- The value `x[i]` holds (R12, R20). -/
def State.readV (s : State) (x : RegIdx) : Byte := s.v[x]

/-- Whether a register has been set since construction (R158). -/
def State.isWritten (s : State) : Reg → Bool
  | .v x => s.written.v[x]
  | .i => s.written.i
  | .pc => s.written.pc

/-- A read of a register by a step or by the host: its value, or the model's fault where nothing has set it (R158, D9). -/
def State.checked {α : Type} (s : State) (r : Reg) (value : α) : Except Fault α :=
  if s.isWritten r then .ok value else .error (.unwrittenRegister r)

/-- `x[i] <- b` (R12), which sets the register (R158; an instruction's write too, DEDUCED, log entry 2).  No register is hardwired (R23). -/
def State.writeV (s : State) (x : RegIdx) (b : Byte) : State :=
  { s with v := s.v.set x b, written := { s.written with v := s.written.v.set x true } }

/-- A write of `I`: any 16-bit value, no range check (R27). -/
def State.writeI (s : State) (w : Word) : State := { s with i := w, written := { s.written with i := true } }

/-- `PC <- w`: any 16-bit value (R12, R28). -/
def State.writePC (s : State) (w : Word) : State := { s with pc := w, written := { s.written with pc := true } }

/-- The index of the flag register `VF` (R20, R25). -/
def vf : RegIdx := 15

/-! ### Memory cells: read and canonical write -/

/-- The byte of a cell: its entry, else what an unlisted address reads as. -/
def Memory.get : Memory → Nat → Byte
  | [], _ => Config.unlistedByte
  | (b, w) :: m, a => if a = b then w else Memory.get m a

/-- Write a cell, keeping the canonical form: the value an unlisted address reads as is not listed. -/
def Memory.put : Memory → Nat → Byte → Memory
  | [], a, v => if v = Config.unlistedByte then [] else [(a, v)]
  | (b, w) :: m, a, v =>
    if a < b then (if v = Config.unlistedByte then (b, w) :: m else (a, v) :: (b, w) :: m)
    else if a = b then (if v = Config.unlistedByte then m else (a, v) :: m)
    else (b, w) :: Memory.put m a v

/-- Write consecutive cells in order. -/
def Memory.putBytes : Memory → Nat → List Byte → Memory
  | m, _, [] => m
  | m, a, v :: vs => Memory.putBytes (Memory.put m a v) (a + 1) vs

/-- The memory whose cells hold `memInit`: `MEM_INIT` of R9, as an argument.  Irreducible, so that no check by `rfl`
enumerates the 4096 cells. -/
@[irreducible] def Memory.ofInit (memInit : Fin Config.memSize → Byte) : Memory :=
  (List.finRange Config.memSize).filterMap
    (fun a => if memInit a = Config.unlistedByte then none else some (a.val, memInit a))

/-! ### The memory ports (R50, R52 to R54) -/

/-- `MemRead(addr, 1)`, the memory read port; also the host's `readByte` (R50, R52).  Addresses are natural numbers,
compared with 4096 without truncation (R48). -/
def memRead (m : Memory) (addr : Nat) : Except Fault Byte :=
  if Config.memSize ≤ addr then .error (.addressOutOfRange addr) else .ok (m.get addr)

/-- `MemWrite(addr, 1, value)`, the host's `writeByte` (R53). -/
def memWrite (m : Memory) (addr : Nat) (value : Byte) : Except Fault Memory :=
  if Config.memSize ≤ addr then .error (.addressOutOfRange addr) else .ok (m.put addr value)

/-- The host's `loadBytes`, all or nothing (R54, R55). -/
def loadBytes (m : Memory) (start : Nat) (data : List Byte) : Except Fault Memory :=
  if Config.memSize < start + data.length then .error (.loadOverflow start data.length)
  else .ok (m.putBytes start data)

/-! ### The fetch and the advance (R91 to R94) -/

/-- Fetch and assemble: the byte at `PC`, then the byte at `PC + 1`, the latter address formed without wrap; the first
read out of range raises (R91, R92, R93).  It reads `PC`, so an unwritten `PC` is a fault of the model (R158). -/
def fetch (s : State) : Except Fault Word :=
  match s.checked .pc s.pc with
  | .error f => .error f
  | .ok pc =>
    match memRead s.mem pc.toNat with
    | .error f => .error f
    | .ok hi =>
      match memRead s.mem (pc.toNat + 1) with
      | .error f => .error f
      | .ok lo => .ok (assemble hi lo)

/-- `PC <- (PC + 2) mod 0x10000`, before dispatch and after a successful fetch, which has read `PC` (R32, R94). -/
def State.advance (s : State) : State := { s with pc := s.pc + 2#16 }

/-! ### Conditions (R135, R144)

The hardware has no trap mechanism: a condition saves nothing, changes no mode and transfers control nowhere; it is only
the status returned to the caller (R144), and there is no return from one (R145).  So the one shared operation of taking a
condition is to report it. -/

/-- Report a status: it enters the record that no later step clears (R12 `report`, R153). -/
def State.report (s : State) (st : Status) : State := { s with history := st :: s.history }

/-- The end of an implemented instruction: its effect, with the status `Executed(op, instr)` (R100, R139).  The opcode is
the instruction's one encoding (log entry 5). -/
def State.complete (s : State) (instr : Instr) : Host.Outcome State Fault Refusal :=
  .next (s.report (.executed (encode instr) instr))

/-! ### Reset and construction (R155, R158, R159) -/

/-- `initialize()`: registers and `I` to 0, `PC` to 0x200, all of them set by it (R158); memory is not touched (R69, R155). -/
def initializeCpu (s : State) : State :=
  { s with v := Vector.replicate 16 0#8, i := 0#16, pc := Config.resetPc, written := Written.all }

/-- The machine after construction, before any `initialize()`: memory holds `MEM_INIT` (R159), no register is written, and
the unspecified register values (R158, D9), which no step reads, are arguments (log entry 2). -/
def State.construct (memInit : Fin Config.memSize → Byte) (v : Vector Byte 16) (i pc : Word) : State where
  v := v
  i := i
  pc := pc
  mem := Memory.ofInit memInit
  written := Written.none
  history := []

/-! ### Placing one opcode where the fetch reads it -/

/-- Memory with the two bytes of an opcode at `PC` and `PC + 1`, big-endian; unchanged where they do not fit below 4096,
since no memory contents make such a fetch succeed (R92, R145). -/
def State.placeOpcode (s : State) (op : Word) : State :=
  match loadBytes s.mem s.pc.toNat (opBytes op) with
  | .ok m => { s with mem := m }
  | .error _ => s

end Sys2Proof.Machine
end

