-- ==== Sys2Proof/Machine/Flags.lean ====
section
/-! DEFINITION. The adder with its carry, and the carry's write into `VF` (R120, R122). -/

namespace Sys2Proof.Machine

/-- The exact 9-bit sum of two bytes (R120). -/
def sum9 (a b : Byte) : BitVec 9 := a.setWidth 9 + b.setWidth 9

/-- The ALU: the sum modulo 256 and the carry out (R120). -/
def add8 (a b : Byte) : Byte × BitVec 1 := ((sum9 a b).extractLsb' 0 8, (sum9 a b).extractLsb' 8 1)

/-- `VF` receives 1 on a carry and 0 without one, always written whole (R122). -/
def State.writeCarry (s : State) (c : BitVec 1) : State := s.writeV vf (c.setWidth 8)

end Sys2Proof.Machine
end

