-- ==== Sys2Proof/Machine/Operands.lean ====
section
/-! DEFINITION. The operand forms: a register and an immediate byte, and no other (R76). -/

namespace Sys2Proof.Machine

/-- A source operand (R75, R76). -/
inductive Operand where
  /-- The register `X` or `Y` selects. -/
  | reg (x : RegIdx)
  /-- The immediate byte `NN`, unsigned, neither extended nor scaled. -/
  | imm (nn : Byte)
deriving DecidableEq, Repr

/-- The read of a source operand: an unwritten register is a fault of the model (R158). -/
def State.operand (s : State) : Operand → Except Fault Byte
  | .reg x => s.checked (.v x) (s.readV x)
  | .imm nn => .ok nn

/-- Read a source operand and go on with its value. -/
def State.withOperand (s : State) (o : Operand) (k : Byte → Host.Outcome State Fault Refusal) :
    Host.Outcome State Fault Refusal :=
  match s.operand o with
  | .error f => .fault f
  | .ok b => k b

end Sys2Proof.Machine
end

