-- ==== Sys2Proof/Machine/Alu.lean ====
section
/-! DEFINITION. The arithmetic/logic class 0x8: its one implemented instruction (R121, R122). -/

namespace Sys2Proof.Machine

/-- `8XY4`, ADD_REG: both operands are read first, then `x[X]` receives the sum modulo 256, then `VF` the carry, last, also
when `X` or `Y` is 15 (R122, R123, R166). -/
def execAddReg (x y : RegIdx) (s : State) : Host.Outcome State Fault Refusal :=
  s.withOperand (.reg x) fun a =>
    s.withOperand (.reg y) fun b =>
      ((s.writeV x (add8 a b).1).writeCarry (add8 a b).2).complete (.addReg x y)

end Sys2Proof.Machine
end

