-- ==== Sys2Proof/Machine/Immediate.lean ====
section
/-! DEFINITION. The immediate-operand instructions, classes 0x6 and 0x7 (R110 to R114). -/

namespace Sys2Proof.Machine

/-- `6XNN`, LD_IMM: `x[X] <- NN`, no flag; `X = 15` writes `VF` like any register (R110, R112). -/
def execLdImm (x : RegIdx) (nn : Byte) (s : State) : Host.Outcome State Fault Refusal :=
  s.withOperand (.imm nn) fun b => (s.writeV x b).complete (.ldImm x nn)

/-- `7XNN`, ADD_IMM: `x[X] <- (x[X] + NN) mod 256`; the adder's carry is discarded (R111, R113, R120); with `X = 15`, `VF`
is the destination (R112). -/
def execAddImm (x : RegIdx) (nn : Byte) (s : State) : Host.Outcome State Fault Refusal :=
  s.withOperand (.reg x) fun a =>
    s.withOperand (.imm nn) fun b => (s.writeV x (add8 a b).1).complete (.addImm x nn)

end Sys2Proof.Machine
end

