-- ==== Sys2Proof/Machine/Unimplemented.lean ====
section
/-! DEFINITION. Every opcode without a handler (R97, R125). -/

namespace Sys2Proof.Machine

/-- UNIMPL: no register, `I` or memory write; the condition is reported and the step completes, `PC` already advanced
(R97, R109, C1). -/
def execUnimpl (op : Word) (s : State) : Host.Outcome State Fault Refusal :=
  .next (s.report (.unimplementedOpcode op))

end Sys2Proof.Machine
end

