-- ==== Sys2Proof/Machine/Dispatch.lean ====
section
/-! DEFINITION. Dispatch and execute: one arm per constructor of Instr (R96). -/

namespace Sys2Proof.Machine

def exec (i : Instr) (s : State) : Host.Outcome State Fault Refusal :=
  match i with
  | .ldImm x nn => Sys2Proof.Machine.execLdImm x nn s
  | .addImm x nn => Sys2Proof.Machine.execAddImm x nn s
  | .addReg x y => Sys2Proof.Machine.execAddReg x y s
  | .unimpl op => Sys2Proof.Machine.execUnimpl op s

end Sys2Proof.Machine
end

