-- ==== Sys2Proof/Machine/Step.lean ====
section
/-! DEFINITION. One step: fetch, assemble, advance, decode, dispatch, execute (R90, R99). -/

namespace Sys2Proof.Machine

/-- One `step()`: a failed fetch raises and changes nothing (R92), as does a read of an unwritten register (R158); otherwise `PC` advances by 2 and the decoded
instruction executes (R94 to R96). -/
def step (s : State) : Host.Outcome State Fault Refusal :=
  match fetch s with
  | .error f => .fault f
  | .ok op => exec (decode op) s.advance

/-- The state with the opcode-table word `w` stored at `PC`, big-endian, so that the next step fetches it.  It stands for
the host's load of a program (R161; log entry 17). -/
def State.withFetchWord (s : State) (nbits w : Nat) : State := s.placeOpcode (tableWord nbits w)

end Sys2Proof.Machine
end

