-- ==== Sys2Proof/Machine/HostPort.lean ====
section
/-! DEFINITION. The block's interface at transaction level: the host's requests, the responses, and the host's run of
steps under a policy (R37 to R42, R103, R142). -/

namespace Sys2Proof.Machine

/-- A request of the host: each is one indivisible transaction (R37, R38, R40, R41). -/
inductive Request where
  /-- `initialize()` (R155). -/
  | initializeCpu
  /-- `step()` (R99). -/
  | step
  | readV (x : RegIdx)
  | writeV (x : RegIdx) (b : Byte)
  | readI
  | writeI (w : Word)
  | readPC
  | writePC (w : Word)
  | readByte (addr : Nat)
  | writeByte (addr : Nat) (value : Byte)
  | loadBytes (start : Nat) (data : List Byte)
deriving DecidableEq, Repr

/-- What a transaction returns to the host. -/
inductive Response where
  /-- It completed and returns nothing. -/
  | done
  /-- The byte read. -/
  | byte (b : Byte)
  /-- The 16-bit register read. -/
  | word (w : Word)
  /-- A step's status, or the condition that ended a host operation (R42, R135, R141). -/
  | status (st : Status)
  /-- The model gives the operation no meaning, because it reads an unwritten register (R158, D9): no status of the block,
  and nothing is recorded. -/
  | modelFault (f : Fault)
  /-- No meaning for the instruction: never given, since every opcode has one. -/
  | noMeaning
deriving DecidableEq, Repr

/-- The status output of a step that completed: the status it reported last (R42, R143). -/
def State.statusOutput (s : State) : Response :=
  match s.history with
  | st :: _ => .status st
  | [] => .done

/-- A fault that ends an operation: nothing changes, but that a condition of the block is recorded, and the caller is told
(R140, R141, R153). -/
def State.raise (s : State) (f : Fault) : State × Response :=
  match f.status with
  | some st => (s.report st, .status st)
  | none => (s, .modelFault f)

/-- A host read of a register (R38): its value, or the model's fault where nothing has set it (R158). -/
def State.hostRead {α : Type} (s : State) (r : Reg) (value : α) (k : α → Response) : State × Response :=
  match s.checked r value with
  | .ok a => (s, k a)
  | .error f => s.raise f

/-- One transaction.  No condition stops the block: it answers any next request (R103, R142). -/
def transact (q : Request) (s : State) : State × Response :=
  match q with
  | .initializeCpu => (Machine.initializeCpu s, .done)
  | .step =>
    match Machine.step s with
    | .next t => (t, t.statusOutput)
    | .fault f => s.raise f
    | .refused _ => (s, .noMeaning)
  | .readV x => s.hostRead (.v x) (s.readV x) .byte
  | .writeV x b => (s.writeV x b, .done)
  | .readI => s.hostRead .i s.i .word
  | .writeI w => (s.writeI w, .done)
  | .readPC => s.hostRead .pc s.pc .word
  | .writePC w => (s.writePC w, .done)
  | .readByte addr =>
    match memRead s.mem addr with
    | .ok b => (s, .byte b)
    | .error f => s.raise f
  | .writeByte addr value =>
    match memWrite s.mem addr value with
    | .ok m => ({ s with mem := m }, .done)
    | .error f => s.raise f
  | .loadBytes start data =>
    match Machine.loadBytes s.mem start data with
    | .ok m => ({ s with mem := m }, .done)
    | .error f => s.raise f

/-- The requests that cannot move `PC` but by a step: all but a write of `PC` and `initialize()` (R145). -/
def Request.leavesPc : Request → Bool
  | .initializeCpu => false
  | .writePC _ => false
  | .step => true
  | .readV _ => true
  | .writeV _ _ => true
  | .readI => true
  | .writeI _ => true
  | .readPC => true
  | .readByte _ => true
  | .writeByte _ _ => true
  | .loadBytes _ _ => true

/-- A sequence of transactions, in order (R41). -/
def transactAll : List Request → State → State
  | [], s => s
  | q :: qs, s => transactAll qs (transact q s).1

/-- The host's reaction to a status, outside the block (R142): `HOST_UNIMPL_POLICY` of R9 is what a policy says of
`unimplementedOpcode` (log entry 16). -/
inductive HostReaction where
  | goOn
  | stop
deriving DecidableEq, Repr

/-- The host steps at most `k` times and stops where its policy says so (R169). -/
def hostRun (policy : Response → HostReaction) : Nat → State → State
  | 0, s => s
  | k + 1, s =>
    match policy (transact .step s).2 with
    | .goOn => hostRun policy k (transact .step s).1
    | .stop => (transact .step s).1

end Sys2Proof.Machine
end

