-- ==== Sys2Proof/Safety.lean ====
section
/-! DEFINITION. What claims speak of: what a transition leaves unchanged, what a record of statuses says, and the
invariants. -/

namespace Sys2Proof.Machine

/-- The frame of an instruction: outside the registers of `writes`, every general register and its mark (R158) are
unchanged, and so are `I`, `PC`, their marks, and every byte the memory read port gives; the registers of `writes` are
set. -/
def Frame (writes : RegIdx → Prop) (s t : State) : Prop :=
  (∀ j, ¬ writes j → t.readV j = s.readV j ∧ t.isWritten (.v j) = s.isWritten (.v j)) ∧
    (∀ j, writes j → t.isWritten (.v j) = true) ∧
    t.i = s.i ∧ t.isWritten .i = s.isWritten .i ∧ t.pc = s.pc ∧ t.isWritten .pc = s.isWritten .pc ∧
    ∀ a, memRead t.mem a = memRead s.mem a

/-- The registers an instruction reads (the read column of R22). -/
def sources : Instr → List RegIdx
  | .ldImm _ _ => []
  | .addImm x _ => [x]
  | .addReg x y => [x, y]
  | .unimpl _ => []

/-- The registers an instruction reads have been set (R158). -/
abbrev State.OperandsWritten (s : State) (i : Instr) : Prop := ∀ x ∈ sources i, s.isWritten (.v x) = true

/-- A step may fetch: `PC` has been set (R158) and both bytes of the opcode are in memory (R47, R91). -/
abbrev State.CanFetch (s : State) : Prop := s.isWritten .pc = true ∧ s.pc.toNat + 1 < Config.memSize

/-- Every register has been set (R158): so it is after `initialize()`, and ever after. -/
abbrev State.AllWritten (s : State) : Prop := s.written = Written.all

/-- The two states differ in the values of unwritten registers at most (R158). -/
abbrev AgreeOnWritten (s t : State) : Prop :=
  t.written = s.written ∧ t.mem = s.mem ∧ t.history = s.history ∧
    (∀ x, s.isWritten (.v x) = true → t.readV x = s.readV x) ∧
    (s.isWritten .i = true → t.i = s.i) ∧ (s.isWritten .pc = true → t.pc = s.pc)

/-- The two states differ in the record of statuses at most. -/
abbrev SameButHistory (s t : State) : Prop := t.v = s.v ∧ t.i = s.i ∧ t.pc = s.pc ∧ t.mem = s.mem ∧
  t.written = s.written

/-- A status that reports no condition. -/
def Status.isExecuted : Status → Bool
  | .executed _ _ => true
  | .addressOutOfRange _ => false
  | .unimplementedOpcode _ => false
  | .loadOverflow _ _ => false

/-- No condition has been reported (the premise R153 speaks of). -/
abbrev State.Clean (s : State) : Prop := ∀ st ∈ s.history, st.isExecuted = true

/-- A status that some transaction can report: a step's status names its opcode and that opcode's decoding, an address
out of range is one, and a load that overflows does (R92, R100, R136, R137). -/
def Status.coherent : Status → Bool
  | .executed op instr => decide (decode op = instr ∧ instr.mnemonic ≠ .unimpl)
  | .addressOutOfRange addr => decide (Config.memSize ≤ addr)
  | .unimplementedOpcode op => decide (decode op = .unimpl op)
  | .loadOverflow start len => decide (Config.memSize < start + len)

/-- The invariant every transaction keeps: memory is in its canonical form and every recorded status is coherent. -/
abbrev State.HostInv (s : State) : Prop := s.mem.wf ∧ ∀ st ∈ s.history, st.coherent = true

/-- The invariant every step keeps: `HostInv`, and `PC` at most one past the end of memory (R32). -/
abbrev State.Inv (s : State) : Prop := s.HostInv ∧ s.pc.toNat ≤ Config.memSize

end Sys2Proof.Machine
end

