-- ==== Sys2Proof/Certificates/Slice0/Obligations.lean ====
section
/-! DEFINITION. The statements about the model, for the provers. -/

open Sys2Proof
open Sys2Proof.Machine

/-! ### Reset and construction -/

/-- R155: `initialize()` from every state.  It reads no register, so two machines that differ in registers only are the
same after it.  That every register's mark becomes set is the model's reading of R158, the spec's own decision D9 (log
entry 2). -/
def Obligations.InitializeSetsRegistersOnly : Prop :=
  (∀ s : State,
    (∀ j, (initializeCpu s).readV j = 0#8) ∧ (initializeCpu s).i = 0#16 ∧ (initializeCpu s).pc = 0x200#16 ∧
    (∀ r, (initializeCpu s).isWritten r = true) ∧
    (∀ a, memRead (initializeCpu s).mem a = memRead s.mem a) ∧
    initializeCpu (initializeCpu s) = initializeCpu s ∧
    transact .initializeCpu s = (initializeCpu s, .done)) ∧
  ∀ s t : State, t.mem = s.mem → t.history = s.history → initializeCpu t = initializeCpu s

/-- R156: the machine after `initialize()`, constructed with any `MEM_INIT` and any register values, and the model's
reset state.  That every register's mark is set in both is the model's reading of R158, the spec's own decision D9 (log
entry 2). -/
def Obligations.StateAfterInitialize : Prop :=
  (∀ memInit v i pc,
    let s := initializeCpu (State.construct memInit v i pc)
    (∀ j, s.readV j = 0#8) ∧ s.i = 0#16 ∧ s.pc = 0x200#16 ∧ s.AllWritten ∧
      ∀ a, memRead s.mem a = memRead (State.construct memInit v i pc).mem a) ∧
  (∀ j, State.reset.readV j = 0#8) ∧ State.reset.i = 0#16 ∧ State.reset.pc = 0x200#16 ∧ State.reset.AllWritten

/-- The reset state meets the invariants; its empty memory and record are the model's choice (log entries 1 and 4). -/
def Obligations.ResetMeetsTheInvariant : Prop := State.reset.Inv

/-- The open parameter `MEM_INIT` (R9, R159, decision D10; log entry 1): the constructed machine's memory reads as it,
whichever it is, and is in canonical form. -/
def Obligations.ConstructedMemoryReadsAsMemInit : Prop :=
  ∀ memInit v i pc, (State.construct memInit v i pc).HostInv ∧
    ∀ (a : Nat) (h : a < Config.memSize),
      memRead (State.construct memInit v i pc).mem a = .ok (memInit ⟨a, h⟩)

/-! ### Memory and the host's accesses -/

/-- R50, R52: the memory read port, and `readByte` as the same access. -/
def Obligations.ReadPortChecksTheAddress : Prop :=
  ∀ (s : State) (a : Nat),
    (Config.memSize ≤ a → memRead s.mem a = .error (.addressOutOfRange a) ∧
      (transact (.readByte a) s).2 = .status (.addressOutOfRange a) ∧
      SameButHistory s (transact (.readByte a) s).1) ∧
    (a < Config.memSize → memRead s.mem a = .ok (s.mem.get a) ∧
      transact (.readByte a) s = (s, .byte (s.mem.get a)))

/-- R53: `writeByte` writes one cell of canonical memory, or fails and changes nothing. -/
def Obligations.WriteByteWritesOneCell : Prop :=
  ∀ (s : State) (a : Nat) (v : Byte), s.mem.wf →
    (a < Config.memSize → ∃ t, transact (.writeByte a v) s = (t, .done) ∧
      t.v = s.v ∧ t.i = s.i ∧ t.pc = s.pc ∧ t.written = s.written ∧
      ∀ b, memRead t.mem b = if b = a then .ok v else memRead s.mem b) ∧
    (Config.memSize ≤ a → (transact (.writeByte a v) s).2 = .status (.addressOutOfRange a) ∧
      SameButHistory s (transact (.writeByte a v) s).1)

/-- R54: `loadBytes` writes all the bytes in order, or none. -/
def Obligations.LoadBytesIsAllOrNothing : Prop :=
  ∀ (s : State) (start : Nat) (data : List Byte), s.mem.wf →
    (start + data.length ≤ Config.memSize → ∃ t, transact (.loadBytes start data) s = (t, .done) ∧
      t.v = s.v ∧ t.i = s.i ∧ t.pc = s.pc ∧ t.written = s.written ∧
      (∀ (k : Nat) (h : k < data.length), memRead t.mem (start + k) = .ok data[k]) ∧
      ∀ b, (b < start ∨ start + data.length ≤ b) → memRead t.mem b = memRead s.mem b) ∧
    (Config.memSize < start + data.length →
      (transact (.loadBytes start data) s).2 = .status (.loadOverflow start data.length) ∧
      SameButHistory s (transact (.loadBytes start data) s).1)

/-- The edge cases of R55, which are the spec's own decision D16 (log entry 11). -/
def Obligations.LoadBytesEdgeCases : Prop :=
  ∀ s : State,
    (∀ start, start ≤ Config.memSize → transact (.loadBytes start []) s = (s, .done)) ∧
    (∀ start, Config.memSize < start → (transact (.loadBytes start []) s).2 = .status (.loadOverflow start 0)) ∧
    (∀ b, (transact (.loadBytes 4095 [b]) s).2 = .done) ∧
    (∀ b c, (transact (.loadBytes 4095 [b, c]) s).2 = .status (.loadOverflow 4095 2)) ∧
    ∀ start data a, (transact (.loadBytes start data) s).2 ≠ .status (.addressOutOfRange a)

/-- Memories in canonical form that read the same at every address are the same data (the model's convention, log
entry 1). -/
def Obligations.EqualBytesAreEqualMemories : Prop :=
  ∀ m m' : Memory, m.wf → m'.wf → (∀ a, memRead m a = memRead m' a) → m = m'

/-- The register access port of R38, whose widths are the spec's decision D11 (log entry 12): a write sets exactly the
named register, a read of a register that has been set gives its value, and no read changes anything. -/
def Obligations.RegisterPortSetsExactlyOne : Prop :=
  ∀ (s : State) (x : RegIdx) (b : Byte) (w : Word),
    (∃ t, transact (.writeV x b) s = (t, .done) ∧ (∀ j, t.readV j = if j = x then b else s.readV j) ∧
      (∀ r, t.isWritten r = true ↔ r = .v x ∨ s.isWritten r = true) ∧
      t.i = s.i ∧ t.pc = s.pc ∧ t.mem = s.mem ∧ t.history = s.history) ∧
    (∃ t, transact (.writeI w) s = (t, .done) ∧ t.i = w ∧ (∀ j, t.readV j = s.readV j) ∧
      (∀ r, t.isWritten r = true ↔ r = .i ∨ s.isWritten r = true) ∧
      t.pc = s.pc ∧ t.mem = s.mem ∧ t.history = s.history) ∧
    (∃ t, transact (.writePC w) s = (t, .done) ∧ t.pc = w ∧ (∀ j, t.readV j = s.readV j) ∧
      (∀ r, t.isWritten r = true ↔ r = .pc ∨ s.isWritten r = true) ∧
      t.i = s.i ∧ t.mem = s.mem ∧ t.history = s.history) ∧
    (s.isWritten (.v x) = true → transact (.readV x) s = (s, .byte (s.readV x))) ∧
    (s.isWritten .i = true → transact .readI s = (s, .word s.i)) ∧
    (s.isWritten .pc = true → transact .readPC s = (s, .word s.pc)) ∧
    (transact (.readV x) s).1 = s ∧ (transact .readI s).1 = s ∧ (transact .readPC s).1 = s

/-- A byte the host writes at the program counter is what the next step fetches, with no fence (20_memory.md section 8). -/
def Obligations.HostWriteIsSeenByTheNextFetch : Prop :=
  ∀ (s : State) (hi lo : Byte), s.mem.wf → s.CanFetch →
    let t := transactAll [.writeByte s.pc.toNat hi, .writeByte (s.pc.toNat + 1) lo] s
    fetch t = .ok (assemble hi lo) ∧ step t = exec (decode (assemble hi lo)) { t with pc := t.pc + 2#16 }

/-! ### Encoding -/

/-- Decoding an encoding gives the instruction back, for every well-formed instruction and every operand value. -/
def Obligations.DecodeOfEncodeIsTheInstruction : Prop :=
  ∀ i : Instr, i.wellFormed = true → decode (encode i) = i

/-- Every opcode decodes to a well-formed instruction, whose encoding is that opcode: no bit is dropped. -/
def Obligations.EncodeOfDecodeIsTheOpcode : Prop :=
  ∀ op : Word, encode (decode op) = op ∧ (decode op).wellFormed = true

/-- R72: the fields as numbers. -/
def Obligations.FieldsAreBitSlices : Prop :=
  ∀ op : Word,
    (opClass op).toNat = op.toNat / 4096 ∧ (opX op).val = op.toNat / 256 % 16 ∧
    (opY op).val = op.toNat / 16 % 16 ∧ (opN op).toNat = op.toNat % 16 ∧
    (opNN op).toNat = op.toNat % 256 ∧ (opNNN op).toNat = op.toNat % 4096

/-- R77, R78: the two-level opcode map, with the fields as numbers. -/
def Obligations.DecodeFollowsTheOpcodeMap : Prop :=
  ∀ op : Word,
    (op.toNat / 4096 = 6 → ∃ x nn, decode op = .ldImm x nn ∧
      x.val = op.toNat / 256 % 16 ∧ nn.toNat = op.toNat % 256) ∧
    (op.toNat / 4096 = 7 → ∃ x nn, decode op = .addImm x nn ∧
      x.val = op.toNat / 256 % 16 ∧ nn.toNat = op.toNat % 256) ∧
    (op.toNat / 4096 = 8 → op.toNat % 16 = 4 → ∃ x y, decode op = .addReg x y ∧
      x.val = op.toNat / 256 % 16 ∧ y.val = op.toNat / 16 % 16) ∧
    (op.toNat / 4096 = 8 → op.toNat % 16 ≠ 4 → decode op = .unimpl op) ∧
    (op.toNat / 4096 ≠ 6 → op.toNat / 4096 ≠ 7 → op.toNat / 4096 ≠ 8 → decode op = .unimpl op)

/-- The 31 rows of the opcode table are disjoint and complete, and the decoder follows them (30_encoding.md section 3). -/
def Obligations.OpcodeTableCoversEachOpcodeOnce : Prop :=
  opcodeTable.length = 31 ∧
  ∀ op : Word, ∃ r ∈ opcodeTable, r.covers op = true ∧ r.mnemonic = (decode op).mnemonic ∧
    ∀ r' ∈ opcodeTable, r'.covers op = true → r' = r

/-- A few words written out from the encodings decode to what they stand for. -/
def Obligations.SampleWordsDecode : Prop :=
  decode 0b0110101001011100#16 = .ldImm 10 0x5C ∧ decode 0b0111111110000000#16 = .addImm 15 0x80 ∧
  decode 0b1000101010110100#16 = .addReg 10 11 ∧ decode 0b1000000000010101#16 = .unimpl 0x8015 ∧
  decode 0b0000000011101110#16 = .unimpl 0x00EE

/-! ### The step -/

/-- R71, R93: the two bytes at `PC` and `PC + 1`, assembled big-endian. -/
def Obligations.FetchAssemblesBigEndian : Prop :=
  ∀ (s : State) (hi lo : Byte), s.isWritten .pc = true →
    memRead s.mem s.pc.toNat = .ok hi → memRead s.mem (s.pc.toNat + 1) = .ok lo →
    ∃ op, fetch s = .ok op ∧ op.toNat = 256 * hi.toNat + lo.toNat ∧
      op.extractLsb' 8 8 = hi ∧ op.extractLsb' 0 8 = lo

/-- A step runs the instruction that the bytes at `PC` decode to, on the state whose `PC` is past the opcode's two
bytes. -/
def Obligations.StepRunsTheDecodedInstruction : Prop :=
  ∀ (s : State) (hi lo : Byte) (i : Instr), s.isWritten .pc = true →
    memRead s.mem s.pc.toNat = .ok hi → memRead s.mem (s.pc.toNat + 1) = .ok lo →
    decode (assemble hi lo) = i → i.wellFormed = true →
    step s = exec i { s with pc := s.pc + 2#16 }

/-- Whichever well-formed instruction is placed at `PC`, the next step runs it, and no other byte changes. -/
def Obligations.PlacedInstructionRunsNext : Prop :=
  ∀ (s : State) (i : Instr), s.mem.wf → s.CanFetch → i.wellFormed = true →
    let t := s.withFetchWord 16 (encode i).toNat
    step t = exec i { t with pc := t.pc + 2#16 } ∧
    t.v = s.v ∧ t.i = s.i ∧ t.pc = s.pc ∧ t.written = s.written ∧ t.history = s.history ∧ t.mem.wf ∧
    ∀ a, a ≠ s.pc.toNat → a ≠ s.pc.toNat + 1 → memRead t.mem a = memRead s.mem a

/-- When a step fetches and when it fails, `PC` having been set.  The address reported is the spec's decision D4
(40_step_cycle.md R92; log entry 7), and so is the absence of an alignment check (D7; log entry 9).  Where the registers the
instruction reads have been set, a step that fetches completes (R158; log entry 2). -/
def Obligations.StepFailsExactlyOutsideMemory : Prop :=
  ∀ s : State, s.isWritten .pc = true →
    (Config.memSize ≤ s.pc.toNat → step s = .fault (.addressOutOfRange s.pc.toNat)) ∧
    (s.pc.toNat + 1 = Config.memSize → step s = .fault (.addressOutOfRange 0x1000)) ∧
    (s.pc.toNat + 1 < Config.memSize → ∃ op, fetch s = .ok op ∧
      (s.OperandsWritten (decode op) → ∃ t, step s = .next t))

/-- The model's fault of R158, which is the spec's own decision D9 (log entry 2): a step that would read an unwritten `PC`
or operand, and a host read of an unwritten register, stop with its name, change nothing and record nothing; so it is of
every register of a constructed machine. -/
def Obligations.UnwrittenReadIsAModelFault : Prop :=
  (∀ s : State, s.isWritten .pc = false → step s = .fault (.unwrittenRegister .pc)) ∧
  (∀ (x : RegIdx) (nn : Byte) (s : State), s.isWritten (.v x) = false →
    exec (.addImm x nn) s = .fault (.unwrittenRegister (.v x))) ∧
  (∀ (x y : RegIdx) (s : State),
    (s.isWritten (.v x) = false → exec (.addReg x y) s = .fault (.unwrittenRegister (.v x))) ∧
    (s.isWritten (.v x) = true → s.isWritten (.v y) = false →
      exec (.addReg x y) s = .fault (.unwrittenRegister (.v y)))) ∧
  (∀ (s : State) (r : Reg), step s = .fault (.unwrittenRegister r) →
    transact .step s = (s, .modelFault (.unwrittenRegister r))) ∧
  (∀ (s : State) (x : RegIdx),
    (s.isWritten (.v x) = false → transact (.readV x) s = (s, .modelFault (.unwrittenRegister (.v x)))) ∧
    (s.isWritten .i = false → transact .readI s = (s, .modelFault (.unwrittenRegister .i))) ∧
    (s.isWritten .pc = false → transact .readPC s = (s, .modelFault (.unwrittenRegister .pc)))) ∧
  ∀ memInit v i pc r, (State.construct memInit v i pc).isWritten r = false

/-- R140: what each condition leaves of the state, for every request of the host. -/
def Obligations.ConditionsArePrecise : Prop :=
  ∀ (q : Request) (s : State),
    (∀ a, (transact q s).2 = .status (.addressOutOfRange a) → SameButHistory s (transact q s).1) ∧
    (∀ start n, (transact q s).2 = .status (.loadOverflow start n) → SameButHistory s (transact q s).1) ∧
    (∀ op, (transact q s).2 = .status (.unimplementedOpcode op) →
      (transact q s).1.v = s.v ∧ (transact q s).1.i = s.i ∧ (transact q s).1.mem = s.mem ∧
      (transact q s).1.written = s.written ∧ (transact q s).1.pc.toNat = s.pc.toNat + 2)

/-- R30: `PC` advances by exactly 2 in every step that fetches, no instruction writes it otherwise, and a step whose fetch
fails leaves it.  A step that fetches completes where the registers it reads have been set (R158). -/
def Obligations.StepAdvancesPcByTwo : Prop :=
  (∀ (s : State) (op : Word), fetch s = .ok op → s.OperandsWritten (decode op) → ∃ t, step s = .next t) ∧
  (∀ s t : State, step s = .next t → t.pc.toNat = s.pc.toNat + 2) ∧
  (∀ (i : Instr) (s t : State), exec i s = .next t → t.pc = s.pc) ∧
  ∀ (s : State) (f : Fault), fetch s = .error f → (transact .step s).1.pc = s.pc

/-- No step writes memory or the index register (20_memory.md section 2, 10_state.md section 3). -/
def Obligations.StepKeepsMemoryAndIndex : Prop :=
  ∀ s t : State, step s = .next t →
    t.i = s.i ∧ t.mem = s.mem ∧ ∀ a, memRead t.mem a = memRead s.mem a

/-- Which registers a step can change, by the instruction it fetched (the write column of 10_state.md section 1). -/
def Obligations.StepWritesOnlyTheNamedRegisters : Prop :=
  ∀ (s t : State) (op : Word), fetch s = .ok op → step s = .next t →
    ∀ j, t.readV j ≠ s.readV j →
      (op.toNat / 4096 = 6 ∨ op.toNat / 4096 = 7) ∧ j.val = op.toNat / 256 % 16 ∨
      op.toNat / 4096 = 8 ∧ op.toNat % 16 = 4 ∧ (j.val = op.toNat / 256 % 16 ∨ j = 15)

/-- The status of a step: exactly one, with the payload and code of 40_step_cycle.md section 5, which are the spec's
decisions D3 and D19; recording it is the model's (log entries 4, 5 and 14).  Its premises say that the registers the step
reads have been set (R158; log entry 2). -/
def Obligations.StepReportsExactlyOneStatus : Prop :=
  ∀ s : State, s.isWritten .pc = true →
    (∀ op, fetch s = .ok op → decode op = .unimpl op →
      ∃ t, transact .step s = (t, .status (.unimplementedOpcode op)) ∧
        t.history = .unimplementedOpcode op :: s.history ∧ (Status.unimplementedOpcode op).code = 2#2) ∧
    (∀ op, fetch s = .ok op → decode op ≠ .unimpl op → s.OperandsWritten (decode op) →
      ∃ t, transact .step s = (t, .status (.executed op (decode op))) ∧
        t.history = .executed op (decode op) :: s.history ∧ (Status.executed op (decode op)).code = 0#2) ∧
    (∀ f, fetch s = .error f → ∃ a, f = .addressOutOfRange a ∧
      transact .step s =
        ({ s with history := .addressOutOfRange a :: s.history }, .status (.addressOutOfRange a)) ∧
      (Status.addressOutOfRange a).code = 1#2)

/-! ### The instructions -/

/-- R120, R126: the adder's two results as numbers. -/
def Obligations.AdderGivesSumAndCarry : Prop :=
  ∀ a b : Byte, (add8 a b).1.toNat = (a.toNat + b.toNat) % 256 ∧
    (add8 a b).2.toNat = if a.toNat + b.toNat > 255 then 1 else 0

/-- R110: LD_IMM completes in every state with `x[X] = NN` and nothing else changed, and every opcode of the pattern
`6XNN` runs it.  That the write sets the mark of `x[X]` is the model's reading of R158, whose words name `initialize()` and
a host write only (decision D9; log entry 2). -/
def Obligations.LdImmLoadsTheImmediate : Prop :=
  (∀ (x : RegIdx) (nn : Byte) (s : State), ∃ t, exec (.ldImm x nn) s = .next t ∧
    t.readV x = nn ∧ Frame (fun j => j = x) s t) ∧
  ∀ (s : State) (op : Word), fetch s = .ok op → op &&& 0xF000#16 = 0x6000#16 →
    ∃ t x nn, step s = .next t ∧ x.val = op.toNat / 256 % 16 ∧ BitVec.toNat nn = op.toNat % 256 ∧
      t.readV x = nn ∧ Frame (fun j => j = x) { s with pc := s.pc + 2#16 } t

/-- R111, R113: ADD_IMM completes in every state whose `x[X]` has been set (R158), with the sum modulo 256 in `x[X]` and
nothing else changed, so no carry is written, and every opcode of the pattern `7XNN` runs it. -/
def Obligations.AddImmWrapsAndWritesNoCarry : Prop :=
  (∀ (x : RegIdx) (nn : Byte) (s : State), s.isWritten (.v x) = true → ∃ t, exec (.addImm x nn) s = .next t ∧
    (t.readV x).toNat = ((s.readV x).toNat + nn.toNat) % 256 ∧ (x ≠ 15 → t.readV 15 = s.readV 15) ∧
    Frame (fun j => j = x) s t) ∧
  ∀ (s : State) (op : Word), fetch s = .ok op → op &&& 0xF000#16 = 0x7000#16 →
    ∃ x, Fin.val x = op.toNat / 256 % 16 ∧ (s.isWritten (.v x) = true → ∃ t, step s = .next t ∧
      (t.readV x).toNat = ((s.readV x).toNat + op.toNat % 256) % 256 ∧ (x ≠ 15 → t.readV 15 = s.readV 15) ∧
      Frame (fun j => j = x) { s with pc := s.pc + 2#16 } t)

/-- `6FNN` and `7FNN` write `VF` as the destination and no flag: the spec's decision D8 (41_immediate.md R112; log
entry 10). -/
def Obligations.VfIsAnOrdinaryDestination : Prop :=
  ∀ (nn : Byte) (s : State),
    (∃ t, exec (.ldImm 15 nn) s = .next t ∧ t.readV 15 = nn ∧ ∀ j, j ≠ 15 → t.readV j = s.readV j) ∧
    (s.isWritten (.v 15) = true → ∃ t, exec (.addImm 15 nn) s = .next t ∧
      (t.readV 15).toNat = ((s.readV 15).toNat + nn.toNat) % 256 ∧ ∀ j, j ≠ 15 → t.readV j = s.readV j)

/-- R122: ADD_REG completes in every state whose `x[X]` and `x[Y]` have been set (R158), with the sum modulo 256 in `x[X]`
(where `X` is not 15) and the carry in `VF`, both from the values before, and nothing else changed, and every opcode of the
pattern `8XY4` runs it.  That the carry's write sets the mark of `VF` is the model's reading of R158, whose words name
`initialize()` and a host write only (decision D9; log entry 2). -/
def Obligations.AddRegWritesSumThenCarry : Prop :=
  (∀ (x y : RegIdx) (s : State), s.isWritten (.v x) = true → s.isWritten (.v y) = true →
    ∃ t, exec (.addReg x y) s = .next t ∧
      (x ≠ 15 → (t.readV x).toNat = ((s.readV x).toNat + (s.readV y).toNat) % 256) ∧
      (t.readV 15).toNat = (if (s.readV x).toNat + (s.readV y).toNat > 255 then 1 else 0) ∧
      Frame (fun j => j = x ∨ j = 15) s t) ∧
  ∀ (s : State) (op : Word), fetch s = .ok op → op &&& 0xF00F#16 = 0x8004#16 →
    ∃ x y, Fin.val x = op.toNat / 256 % 16 ∧ Fin.val y = op.toNat / 16 % 16 ∧
      (s.isWritten (.v x) = true → s.isWritten (.v y) = true → ∃ t, step s = .next t ∧
        (x ≠ 15 → (t.readV x).toNat = ((s.readV x).toNat + (s.readV y).toNat) % 256) ∧
        (t.readV 15).toNat = (if (s.readV x).toNat + (s.readV y).toNat > 255 then 1 else 0) ∧
        Frame (fun j => j = x ∨ j = 15) { s with pc := s.pc + 2#16 } t)

/-- The register cases of ADD_REG that 42_alu_class8.md section 3 derives: `8XF4`, `8FY4`, `8FF4`, and `8XX4`. -/
def Obligations.AddRegReadsBeforeItWrites : Prop :=
  ∀ (x y : RegIdx) (s : State), x ≠ 15 → y ≠ 15 →
    s.isWritten (.v x) = true → s.isWritten (.v y) = true → s.isWritten (.v 15) = true →
    (∃ t, exec (.addReg x 15) s = .next t ∧
      (t.readV x).toNat = ((s.readV x).toNat + (s.readV 15).toNat) % 256 ∧
      (t.readV 15 = 1 ↔ (s.readV x).toNat + (s.readV 15).toNat > 255) ∧ (t.readV 15 = 0 ∨ t.readV 15 = 1)) ∧
    (∃ t, exec (.addReg 15 y) s = .next t ∧
      (t.readV 15 = 1 ↔ (s.readV 15).toNat + (s.readV y).toNat > 255) ∧ (t.readV 15 = 0 ∨ t.readV 15 = 1) ∧
      ∀ j, j ≠ 15 → t.readV j = s.readV j) ∧
    (∃ t, exec (.addReg 15 15) s = .next t ∧ t.readV 15 = if (s.readV 15).toNat ≥ 128 then 1 else 0) ∧
    ∃ t, exec (.addReg x x) s = .next t ∧ (t.readV x).toNat = 2 * (s.readV x).toNat % 256 ∧
      t.readV 15 = if (s.readV x).toNat ≥ 128 then 1 else 0

/-- R97: an opcode without a handler completes with nothing changed but `PC`, and the step reports it. -/
def Obligations.UnimplChangesOnlyPcAndReports : Prop :=
  (∀ (op : Word) (s : State), ∃ t, exec (.unimpl op) s = .next t ∧ Frame (fun _ => False) s t) ∧
  (∀ (op : Word) (r : OpcodeRow), r ∈ opcodeTable → r.mnemonic = .unimpl → r.covers op = true →
    decode op = .unimpl op) ∧
  ∀ (s : State) (op : Word), fetch s = .ok op → decode op = .unimpl op →
    ∃ t, step s = .next t ∧ transact .step s = (t, .status (.unimplementedOpcode op)) ∧
      t.pc.toNat = s.pc.toNat + 2 ∧ Frame (fun _ => False) { s with pc := s.pc + 2#16 } t ∧
      (s.pc = 0xFFE#16 → t.pc = 0x1000#16 ∧ ∃ a, (transact .step t).2 = .status (.addressOutOfRange a))

/-- R125: class 0x8 with `N` other than 4. -/
def Obligations.OtherClass8OpcodesAreUnimplemented : Prop :=
  ∀ (s : State) (op : Word), fetch s = .ok op → op.toNat / 4096 = 8 → op.toNat % 16 ≠ 4 →
    ∃ t, transact .step s = (t, .status (.unimplementedOpcode op)) ∧ t.pc.toNat = s.pc.toNat + 2 ∧
      (∀ j, t.readV j = s.readV j) ∧ t.i = s.i ∧ t.written = s.written ∧ ∀ a, memRead t.mem a = memRead s.mem a

/-- What an instruction writes depends on no register but those it reads (the read column of 10_state.md section 1): two
states that agree on those get the same written values. -/
def Obligations.InstructionsReadOnlyTheNamedRegisters : Prop :=
  ∀ (s s' : State) (x y : RegIdx) (nn : Byte),
    (∃ t t', exec (.ldImm x nn) s = .next t ∧ exec (.ldImm x nn) s' = .next t' ∧ t.readV x = t'.readV x) ∧
    (s.isWritten (.v x) = true → s'.isWritten (.v x) = true → s.readV x = s'.readV x →
      ∃ t t', exec (.addImm x nn) s = .next t ∧ exec (.addImm x nn) s' = .next t' ∧ t.readV x = t'.readV x) ∧
    (s.isWritten (.v x) = true → s'.isWritten (.v x) = true → s.readV x = s'.readV x →
      s.isWritten (.v y) = true → s'.isWritten (.v y) = true → s.readV y = s'.readV y →
      ∃ t t', exec (.addReg x y) s = .next t ∧ exec (.addReg x y) s' = .next t' ∧ t.readV x = t'.readV x ∧
        t.readV 15 = t'.readV 15)

/-- Every instruction completes in every state whose registers it reads have been set (R158), and stops in no other way:
none is refused, and none writes `PC`, `I` or memory (40_step_cycle.md sections 2 to 7; log entry 2). -/
def Obligations.EveryInstructionCompletes : Prop :=
  (∀ (i : Instr) (s : State), s.OperandsWritten i →
    ∃ t, exec i s = .next t ∧ t.pc = s.pc ∧ t.i = s.i ∧ t.mem = s.mem) ∧
  ∀ (i : Instr) (s : State), ¬ s.OperandsWritten i →
    ∃ x ∈ sources i, s.isWritten (.v x) = false ∧ exec i s = .fault (.unwrittenRegister (.v x))

/-! ### Whole-machine rules -/

/-- Every step keeps the invariant, from every state that meets it. -/
def Obligations.StepKeepsTheInvariant : Prop :=
  ∀ s t : State, s.Inv → step s = .next t → t.Inv

/-- Every sequence of the host's requests keeps memory canonical and the record coherent, from every state that meets
this; the record is the model's (log entry 4). -/
def Obligations.TransactionsKeepTheInvariant : Prop :=
  ∀ (qs : List Request) (s : State), s.HostInv → (transactAll qs s).HostInv

/-- No transaction clears the record (60_exceptions.md section 8; log entry 4). -/
def Obligations.NoTransactionClearsTheRecord : Prop :=
  ∀ (qs : List Request) (s : State), s.history <:+ (transactAll qs s).history

/-- A transaction records exactly the status it returns, and nothing where it returns none (60_exceptions.md section 8; log
entry 4). -/
def Obligations.RecordIsTheReturnedStatuses : Prop :=
  ∀ (q : Request) (s : State),
    (∀ st, (transact q s).2 = .status st → (transact q s).1.history = st :: s.history) ∧
    ((∀ st, (transact q s).2 ≠ .status st) → (transact q s).1.history = s.history)

/-- No step depends on the index register. -/
def Obligations.StepIgnoresTheIndexRegister : Prop :=
  ∀ (s : State) (w : Word),
    (∀ t, step s = .next t → step { s with i := w } = .next { t with i := w }) ∧
    ∀ f, step s = .fault f → step { s with i := w } = .fault f

/-- The only memory a step depends on is the two bytes at `PC` and `PC + 1`. -/
def Obligations.StepReadsOnlyTheFetchedBytes : Prop :=
  ∀ (s : State) (m : Memory),
    memRead m s.pc.toNat = memRead s.mem s.pc.toNat →
    memRead m (s.pc.toNat + 1) = memRead s.mem (s.pc.toNat + 1) →
    (∀ t, step s = .next t → step { s with mem := m } = .next { t with mem := m }) ∧
    ∀ f, step s = .fault f → step { s with mem := m } = .fault f

/-- No step depends on the statuses reported before: the record is no state of the block (10_state.md section 5; log
entry 4). -/
def Obligations.StepIgnoresTheRecord : Prop :=
  ∀ (s : State) (h : List Status),
    (∀ t, step s = .next t → ∃ t', step { s with history := h } = .next t' ∧ SameButHistory t t') ∧
    ∀ f, step s = .fault f → step { s with history := h } = .fault f

/-- No step depends on the value of an unwritten register (R158, decision D9; log entry 2): two states that agree on the
registers that have been set, on memory and on the record complete or fail alike. -/
def Obligations.StepIgnoresUnwrittenValues : Prop :=
  ∀ s s' : State, AgreeOnWritten s s' →
    (∀ t, step s = .next t → ∃ t', step s' = .next t' ∧ AgreeOnWritten t t') ∧
    ∀ f, step s = .fault f → step s' = .fault f

/-- A register that has been set stays so, `initialize()` sets every one, and from then on no request meets the model's
fault (R158, decision D9; log entry 2). -/
def Obligations.WrittenRegistersStayWritten : Prop :=
  (∀ (qs : List Request) (s : State) (r : Reg), s.isWritten r = true → (transactAll qs s).isWritten r = true) ∧
  (∀ (qs : List Request) (s : State), (transactAll (.initializeCpu :: qs) s).AllWritten) ∧
  ∀ (q : Request) (s : State) (f : Fault), s.AllWritten → (transact q s).2 ≠ .modelFault f

/-- Execution is straight-line: `k` steps that stay inside memory complete, whatever the opcodes, every register having been
set (R158), with `PC` moved by `2 * k` and memory and `I` as they were.  That the record grows by `k` statuses is the
model's (log entry 4). -/
def Obligations.ExecutionIsStraightLine : Prop :=
  ∀ (k : Nat) (s : State), s.AllWritten → s.pc.toNat + 2 * k ≤ Config.memSize →
    ∃ t : State, Sys2Proof.core.run k s = .next t ∧ t.pc.toNat = s.pc.toNat + 2 * k ∧ t.i = s.i ∧
      t.history.length = s.history.length + k ∧ ∀ a, memRead t.mem a = memRead s.mem a

/-- From the entry point, every register having been set (R158), 1,792 steps complete whatever memory holds, and the next
one fails its fetch (90_conflicts.md C5). -/
def Obligations.RunFromTheEntryPointLeavesMemory : Prop :=
  ∀ s : State, s.AllWritten → s.pc = 0x200#16 →
    (∃ t : State, Sys2Proof.core.run 1792 s = .next t ∧ t.pc = 0x1000#16) ∧
    ∀ n, Sys2Proof.core.run (1793 + n) s = .fault (.addressOutOfRange 0x1000)

/-- A failed fetch repeats until `PC` is written or `initialize()` runs (60_exceptions.md section 4; log entry 3): after any
requests but those two, `PC` is as before and the next step changes nothing but the record and reports the same; further
steps alone change nothing else either; and after a write of `PC` to an address a fetch can start at, or after
`initialize()`, the next step completes, the registers having been set (R158). -/
def Obligations.FailedFetchRepeats : Prop :=
  ∀ s : State, s.isWritten .pc = true → Config.memSize ≤ s.pc.toNat + 1 →
    (∃ a, (transact .step s).2 = .status (.addressOutOfRange a) ∧
      ∀ qs : List Request, (∀ q ∈ qs, q.leavesPc = true) →
        (transactAll qs s).pc = s.pc ∧
        (transact .step (transactAll qs s)).2 = .status (.addressOutOfRange a) ∧
        SameButHistory (transactAll qs s) (transact .step (transactAll qs s)).1) ∧
    (∀ n, SameButHistory s (transactAll (List.replicate n .step) s)) ∧
    (∀ (qs : List Request) (w : Word), s.AllWritten → w.toNat + 1 < Config.memSize →
      ∃ t, step (transact (.writePC w) (transactAll qs s)).1 = .next t) ∧
    ∀ qs : List Request, ∃ t, step (initializeCpu (transactAll qs s)) = .next t

/-- A record with no condition means that every step fetched and ran an implemented instruction, every register having been
set (R158). -/
def Obligations.CleanRunExecutedOnlyImplemented : Prop :=
  ∀ (n : Nat) (s : State), s.AllWritten → (transactAll (List.replicate n .step) s).Clean →
    Sys2Proof.core.run n s = .next (transactAll (List.replicate n .step) s) ∧
    ∀ k, k < n → ∃ op, fetch (transactAll (List.replicate k .step) s) = .ok op ∧ decode op ≠ .unimpl op

/-- The host's run is the plain steps up to the first response its policy says stop to, or all `k` of them: the policy
decides when stepping stops and never what a step does (R9's `HOST_UNIMPL_POLICY` is an argument, decision D12; log
entry 16). -/
def Obligations.PolicyOnlyStopsTheRun : Prop :=
  ∀ (policy : Response → HostReaction) (k : Nat) (s : State),
    ∃ j, j ≤ k ∧ hostRun policy k s = transactAll (List.replicate j .step) s ∧
      (∀ m, m + 1 < j → policy (transact .step (transactAll (List.replicate m .step) s)).2 = .goOn) ∧
      (j = k ∨ ∃ m, j = m + 1 ∧
        policy (transact .step (transactAll (List.replicate m .step) s)).2 = .stop)
end

