-- ==== Sys2Proof/Laws/Decode.lean ====
section
/-! SUPPORT. The laws of bit fields that decoding and encoding rest on. -/

namespace Sys2Proof

/-- A field that lies within the low part of a concatenation is that part's field. -/
theorem extract_append_low {m n : Nat} (a : BitVec m) (b : BitVec n) {s k : Nat} (h : s + k ≤ n) :
    (a ++ b).extractLsb' s k = b.extractLsb' s k := by
  ext j hj
  simp only [BitVec.getElem_extractLsb', BitVec.getLsbD_append]
  rw [if_pos (by omega)]

/-- A field that lies within the high part of a concatenation is that part's field. -/
theorem extract_append_high {m n : Nat} (a : BitVec m) (b : BitVec n) {s k : Nat} (h : n ≤ s) :
    (a ++ b).extractLsb' s k = a.extractLsb' (s - n) k := by
  ext j hj
  simp only [BitVec.getElem_extractLsb', BitVec.getLsbD_append]
  rw [if_neg (by omega), show s + j - n = s - n + j by omega]

@[simp] theorem opHi_assemble (hi lo : Byte) : opHi (assemble hi lo) = hi := by
  rw [opHi, assemble, extract_append_high _ _ (by omega)]
  exact BitVec.extractLsb'_eq_self

@[simp] theorem opLo_assemble (hi lo : Byte) : opLo (assemble hi lo) = lo := by
  rw [opLo, assemble, extract_append_low _ _ (by omega)]
  exact BitVec.extractLsb'_eq_self

/-- The two bytes of an opcode, assembled, give it back. -/
@[simp] theorem assemble_bytes (op : Word) : assemble (opHi op) (opLo op) = op := by
  apply BitVec.eq_of_toNat_eq
  have := op.isLt
  simp only [assemble, opHi, opLo, BitVec.toNat_append, BitVec.extractLsb'_toNat, Nat.shiftRight_eq_div_pow]
  rw [Nat.shiftLeft_eq, ← Nat.mul_comm, ← Nat.two_pow_add_eq_or_of_lt (by omega)]
  omega

/-- The decoder on bytes reads an encoded instruction and leaves the bytes after it. -/
theorem decodeBytes_opBytes (op : Word) (rest : List Byte) :
    decodeBytes (opBytes op ++ rest) = .ok (decode op, rest) := by
  simp [decodeBytes, opBytes]

end Sys2Proof
end

