-- ==== Sys2Proof/Laws/Memory.lean ====
section
/-! SUPPORT. The laws of memory: what a read gives after a write, and that every memory operation keeps the canonical
form. -/

namespace Sys2Proof.Machine

@[simp] theorem get_nil (a : Nat) : Memory.get [] a = Config.unlistedByte := rfl

theorem get_cons (b : Nat) (w : Byte) (m : Memory) (a : Nat) :
    Memory.get ((b, w) :: m) a = if a = b then w else Memory.get m a := rfl

/-- The tail of a canonical memory is canonical, and its addresses lie above the head's. -/
theorem wf_cons {b : Nat} {w : Byte} {m : Memory} :
    Memory.wf ((b, w) :: m) ↔
      (∀ c ∈ m, b < c.1) ∧ b < Config.memSize ∧ w ≠ Config.unlistedByte ∧ Memory.wf m := by
  simp only [Memory.wf, List.pairwise_cons, List.mem_cons, forall_eq_or_imp]
  tauto

theorem wf_nil : Memory.wf [] := by simp [Memory.wf]

/-- An address below every listed one is not listed. -/
theorem get_of_lt_all {m : Memory} {a : Nat} (h : ∀ c ∈ m, a < c.1) : m.get a = Config.unlistedByte := by
  induction m with
  | nil => rfl
  | cons c m ih =>
    have hc := h c (by simp)
    rw [show Memory.get (c :: m) a = if a = c.1 then c.2 else Memory.get m a from rfl, if_neg (by omega)]
    exact ih fun d hd => h d (by simp [hd])

/-- Read after write: the written byte at the written address, every other address as before. -/
theorem get_put {m : Memory} (h : m.wf) (a : Nat) (v : Byte) (b : Nat) :
    (m.put a v).get b = if b = a then v else m.get b := by
  induction m with
  | nil =>
    unfold Memory.put
    by_cases hv : v = Config.unlistedByte <;> simp [hv, get_cons]
  | cons c m ih =>
    obtain ⟨c, w⟩ := c
    obtain ⟨hlt, -, -, hm⟩ := wf_cons.1 h
    have hget : a ≤ c → Memory.get m a = Config.unlistedByte := fun hac =>
      get_of_lt_all fun d hd => by have := hlt d hd; omega
    unfold Memory.put
    rcases Nat.lt_trichotomy a c with hac | rfl | hac
    · rw [if_pos hac]
      by_cases hv : v = Config.unlistedByte
      · rw [if_pos hv, get_cons]
        split
        · next hb => rw [if_neg (by omega)]
        · split
          · next hb => rw [hb, hget (by omega), hv]
          · rfl
      · rw [if_neg hv, get_cons]
    · rw [if_neg (by omega), if_pos rfl]
      by_cases hv : v = Config.unlistedByte
      · rw [if_pos hv, get_cons]
        split
        · next hb => rw [hb, hget (by omega), hv]
        · rfl
      · rw [if_neg hv, get_cons, get_cons]
        split <;> rfl
    · rw [if_neg (by omega), if_neg (by omega), get_cons, get_cons, ih hm]
      split
      · next hb => rw [if_neg (by omega)]
      · rfl

/-- The addresses of a written memory are the written one and those listed before. -/
theorem mem_put {m : Memory} {a : Nat} {v : Byte} {c : Host.Cell} (h : c ∈ m.put a v) :
    c = (a, v) ∧ v ≠ Config.unlistedByte ∨ c ∈ m := by
  induction m with
  | nil =>
    unfold Memory.put at h
    split at h
    · exact .inr h
    · next hv => exact .inl ⟨by simpa using h, hv⟩
  | cons d m ih =>
    obtain ⟨d, w⟩ := d
    unfold Memory.put at h
    split at h
    · split at h
      · exact .inr h
      · next hv =>
        rcases List.mem_cons.1 h with rfl | h
        · exact .inl ⟨rfl, hv⟩
        · exact .inr h
    · split at h
      · split at h
        · exact .inr (List.mem_cons_of_mem _ h)
        · next hv =>
          rcases List.mem_cons.1 h with rfl | h
          · exact .inl ⟨rfl, hv⟩
          · exact .inr (List.mem_cons_of_mem _ h)
      · rcases List.mem_cons.1 h with rfl | h
        · exact .inr (by simp)
        · exact (ih h).imp_right (List.mem_cons_of_mem _)

/-- A write of a cell keeps the canonical form. -/
theorem put_wf {m : Memory} (h : m.wf) {a : Nat} (ha : a < Config.memSize) (v : Byte) : (m.put a v).wf := by
  induction m with
  | nil =>
    unfold Memory.put
    split
    · exact wf_nil
    · next hv => exact wf_cons.2 ⟨by simp, ha, hv, wf_nil⟩
  | cons c m ih =>
    obtain ⟨c, w⟩ := c
    obtain ⟨hlt, hc, hw, hm⟩ := wf_cons.1 h
    unfold Memory.put
    split
    · next hac =>
      split
      · exact h
      · next hv =>
        refine wf_cons.2 ⟨?_, ha, hv, h⟩
        intro d hd
        rcases List.mem_cons.1 hd with rfl | hd
        · exact hac
        · have := hlt d hd; omega
    · next hac =>
      split
      · next hac' =>
        subst hac'
        split
        · exact hm
        · next hv => exact wf_cons.2 ⟨hlt, ha, hv, hm⟩
      · next hne =>
        refine wf_cons.2 ⟨?_, hc, hw, ih hm⟩
        intro d hd
        rcases mem_put hd with ⟨rfl, -⟩ | hd
        · show c < a
          omega
        · exact hlt d hd

/-- A write of consecutive cells keeps the canonical form. -/
theorem putBytes_wf {m : Memory} (h : m.wf) {a : Nat} {vs : List Byte} (ha : a + vs.length ≤ Config.memSize) :
    (m.putBytes a vs).wf := by
  induction vs generalizing m a with
  | nil => exact h
  | cons v vs ih =>
    simp only [List.length_cons] at ha
    exact ih (put_wf h (by omega) v) (by omega)

/-- Read after a write of consecutive cells: the written bytes in order, every other address as before. -/
theorem get_putBytes {m : Memory} (h : m.wf) (vs : List Byte) {a : Nat} (ha : a + vs.length ≤ Config.memSize)
    (b : Nat) :
    (m.putBytes a vs).get b = if h : a ≤ b ∧ b < a + vs.length then vs[b - a]'(by omega) else m.get b := by
  induction vs generalizing m a with
  | nil =>
    rw [dif_neg (by simp only [List.length_nil]; omega)]
    rfl
  | cons v vs ih =>
    simp only [List.length_cons] at ha
    rw [show m.putBytes a (v :: vs) = (m.put a v).putBytes (a + 1) vs from rfl,
      ih (put_wf h (by omega) v) (by omega), get_put h]
    by_cases h1 : b = a
    · subst h1
      rw [dif_neg (by omega), dif_pos (by simp)]
      simp
    · by_cases h2 : a + 1 ≤ b ∧ b < a + 1 + vs.length
      · rw [dif_pos h2, dif_pos (by simp only [List.length_cons]; omega)]
        obtain ⟨k, rfl⟩ := Nat.exists_eq_add_of_le h2.1
        simp [show a + 1 + k - a = k + 1 by omega]
      · rw [dif_neg h2, dif_neg (by simp only [List.length_cons]; omega), if_neg h1]

/-! ### The memory ports -/

theorem memRead_ok {m : Memory} {a : Nat} (h : a < Config.memSize) : memRead m a = .ok (m.get a) := by
  simp [memRead, Nat.not_le.2 h]

theorem memRead_error {m : Memory} {a : Nat} (h : Config.memSize ≤ a) :
    memRead m a = .error (.addressOutOfRange a) := by
  simp [memRead, h]

/-- Two memories read alike at every address exactly when their cells hold the same bytes. -/
theorem memRead_eq_of_get {m m' : Memory} (h : ∀ a, m.get a = m'.get a) (a : Nat) : memRead m a = memRead m' a := by
  simp [memRead, h]

/-- Everything `writeByte` can do when it succeeds. -/
theorem memWrite_ok {m m' : Memory} {a : Nat} {v : Byte} (h : memWrite m a v = .ok m') :
    a < Config.memSize ∧ m' = m.put a v := by
  unfold memWrite at h
  split at h
  · cases h
  · next ha => exact ⟨Nat.lt_of_not_le ha, (Except.ok.inj h).symm⟩

/-- Everything `loadBytes` can do when it succeeds. -/
theorem loadBytes_ok {m m' : Memory} {a : Nat} {vs : List Byte} (h : loadBytes m a vs = .ok m') :
    a + vs.length ≤ Config.memSize ∧ m' = m.putBytes a vs := by
  unfold loadBytes at h
  split at h
  · cases h
  · next ha => exact ⟨Nat.le_of_not_lt ha, (Except.ok.inj h).symm⟩

theorem memWrite_wf {m m' : Memory} {a : Nat} {v : Byte} (hm : m.wf) (h : memWrite m a v = .ok m') : m'.wf := by
  obtain ⟨ha, rfl⟩ := memWrite_ok h
  exact put_wf hm ha v

theorem loadBytes_wf {m m' : Memory} {a : Nat} {vs : List Byte} (hm : m.wf) (h : loadBytes m a vs = .ok m') :
    m'.wf := by
  obtain ⟨ha, rfl⟩ := loadBytes_ok h
  exact putBytes_wf hm ha

/-- The memory of a `MEM_INIT` is in canonical form. -/
theorem ofInit_wf (memInit : Fin Config.memSize → Byte) : (Memory.ofInit memInit).wf := by
  unfold Memory.ofInit
  constructor
  · refine List.pairwise_filterMap.2 ?_
    refine (List.pairwise_lt_finRange _).imp ?_
    intro a b hab c hc d hd
    split at hc
    · cases hc
    · split at hd
      · cases hd
      · cases hc
        cases hd
        exact hab
  · intro c hc
    obtain ⟨a, -, ha⟩ := List.mem_filterMap.1 hc
    split at ha
    · cases ha
    · next hv =>
      cases ha
      exact ⟨a.isLt, hv⟩

end Sys2Proof.Machine
end

