-- ==== Sys2Proof/Laws/PerInstr.lean ====
section
/-! SUPPORT. Per-instruction statements about the encoding: the fields of an instruction's encoding are its operands. -/

namespace Sys2Proof.Laws.EncodeFields

/-- Each field of the encoding, read by the field functions of R72, is what the instruction's encoding string puts
there (R74, R83). -/
def Statement : Instr → Prop
  | .ldImm x nn =>
    opClass (encode (.ldImm x nn)) = 6 ∧ opX (encode (.ldImm x nn)) = x ∧ opNN (encode (.ldImm x nn)) = nn
  | .addImm x nn =>
    opClass (encode (.addImm x nn)) = 7 ∧ opX (encode (.addImm x nn)) = x ∧ opNN (encode (.addImm x nn)) = nn
  | .addReg x y =>
    opClass (encode (.addReg x y)) = 8 ∧ opX (encode (.addReg x y)) = x ∧ opY (encode (.addReg x y)) = y ∧
      opN (encode (.addReg x y)) = 4
  | .unimpl op => encode (.unimpl op) = op

/-- The fields of a word laid out as `class X NN`. -/
theorem fields_xnn (c : BitVec 4) (x : RegIdx) (nn : Byte) :
    opClass (c ++ BitVec.ofFin (w := 4) x ++ nn) = c ∧ opX (c ++ BitVec.ofFin (w := 4) x ++ nn) = x ∧
      opNN (c ++ BitVec.ofFin (w := 4) x ++ nn) = nn := by
  refine ⟨?_, ?_, ?_⟩
  · rw [opClass, extract_append_high _ _ (by omega), extract_append_high _ _ (by omega)]
    exact BitVec.extractLsb'_eq_self
  · rw [opX, extract_append_high _ _ (by omega), extract_append_low _ _ (by omega)]
    exact congrArg BitVec.toFin BitVec.extractLsb'_eq_self
  · rw [opNN, extract_append_low _ _ (by omega)]
    exact BitVec.extractLsb'_eq_self

/-- The fields of a word laid out as `class X Y N`. -/
theorem fields_xyn (c : BitVec 4) (x y : RegIdx) (n : BitVec 4) :
    opClass (c ++ BitVec.ofFin (w := 4) x ++ BitVec.ofFin (w := 4) y ++ n) = c ∧
      opX (c ++ BitVec.ofFin (w := 4) x ++ BitVec.ofFin (w := 4) y ++ n) = x ∧
      opY (c ++ BitVec.ofFin (w := 4) x ++ BitVec.ofFin (w := 4) y ++ n) = y ∧
      opN (c ++ BitVec.ofFin (w := 4) x ++ BitVec.ofFin (w := 4) y ++ n) = n := by
  refine ⟨?_, ?_, ?_, ?_⟩
  · rw [opClass, extract_append_high _ _ (by omega), extract_append_high _ _ (by omega),
      extract_append_high _ _ (by omega)]
    exact BitVec.extractLsb'_eq_self
  · rw [opX, extract_append_high _ _ (by omega), extract_append_high _ _ (by omega),
      extract_append_low _ _ (by omega)]
    exact congrArg BitVec.toFin BitVec.extractLsb'_eq_self
  · rw [opY, extract_append_high _ _ (by omega), extract_append_low _ _ (by omega)]
    exact congrArg BitVec.toFin BitVec.extractLsb'_eq_self
  · rw [opN, extract_append_low _ _ (by omega)]
    exact BitVec.extractLsb'_eq_self

theorem ldImm (x : RegIdx) (nn : Byte) : Statement (.ldImm x nn) := fields_xnn 6 x nn

theorem addImm (x : RegIdx) (nn : Byte) : Statement (.addImm x nn) := fields_xnn 7 x nn

theorem addReg (x y : RegIdx) : Statement (.addReg x y) := fields_xyn 8 x y 4

theorem unimpl (op : Word) : Statement (.unimpl op) := rfl

end Sys2Proof.Laws.EncodeFields
end

