-- ==== Sys2Proof/Laws/State.lean ====
section
/-! SUPPORT. One lemma per field per update of the state, so that no proof unfolds a record update. -/

namespace Sys2Proof.Machine

/-! ### Register reads after register writes -/

@[simp] theorem readV_writeV (s : State) (x y : RegIdx) (b : Byte) :
    (s.writeV x b).readV y = if y = x then b else s.readV y := by
  simp [State.writeV, State.readV, Vector.getElem_set, Fin.ext_iff, eq_comm]

theorem readV_writeV_same (s : State) (x : RegIdx) (b : Byte) : (s.writeV x b).readV x = b := by simp

theorem readV_writeV_other (s : State) {x y : RegIdx} (b : Byte) (h : y ≠ x) :
    (s.writeV x b).readV y = s.readV y := by simp [h]

/-- Two register files that read the same at every index are the same file. -/
theorem v_ext {s t : State} (h : ∀ j, s.readV j = t.readV j) : s.v = t.v := by
  apply Vector.ext
  intro k hk
  exact h ⟨k, hk⟩

/-! ### The marks of R158 -/

@[simp] theorem isWritten_writeV (s : State) (x : RegIdx) (b : Byte) (r : Reg) :
    (s.writeV x b).isWritten r = (decide (r = .v x) || s.isWritten r) := by
  cases r with
  | v y =>
    by_cases h : y = x
    · subst h
      simp [State.writeV, State.isWritten]
    · have h' : x.val ≠ y.val := fun e => h (Fin.ext e.symm)
      simp [State.writeV, State.isWritten, h, h']
  | i => simp [State.writeV, State.isWritten]
  | pc => simp [State.writeV, State.isWritten]

@[simp] theorem isWritten_writeI (s : State) (w : Word) (r : Reg) :
    (s.writeI w).isWritten r = (decide (r = .i) || s.isWritten r) := by
  cases r <;> simp [State.writeI, State.isWritten]

@[simp] theorem isWritten_writePC (s : State) (w : Word) (r : Reg) :
    (s.writePC w).isWritten r = (decide (r = .pc) || s.isWritten r) := by
  cases r <;> simp [State.writePC, State.isWritten]

/-- A state's marks are all set exactly when each register is written. -/
theorem written_all_iff {s : State} : s.written = Written.all ↔ ∀ r, s.isWritten r = true := by
  constructor
  · intro h r
    cases r <;> simp [State.isWritten, h, Written.all]
  · intro h
    have hv : s.written.v = Vector.replicate 16 true := by
      apply Vector.ext
      intro k hk
      simpa [State.isWritten] using h (.v ⟨k, hk⟩)
    have hi : s.written.i = true := h .i
    have hpc : s.written.pc = true := h .pc
    cases hw : s.written with
    | mk v i pc => simp_all [Written.all]

/-- A checked read is the value exactly when the register is written. -/
theorem checked_of_written {α : Type} {s : State} {r : Reg} (h : s.isWritten r = true) (a : α) :
    s.checked r a = .ok a := by
  simp [State.checked, h]

theorem checked_of_unwritten {α : Type} {s : State} {r : Reg} (h : s.isWritten r = false) (a : α) :
    s.checked r a = .error (.unwrittenRegister r) := by
  simp [State.checked, h]

/-! ### `writeV` -/

@[simp] theorem writeV_i (s : State) (x : RegIdx) (b : Byte) : (s.writeV x b).i = s.i := rfl
@[simp] theorem writeV_pc (s : State) (x : RegIdx) (b : Byte) : (s.writeV x b).pc = s.pc := rfl
@[simp] theorem writeV_mem (s : State) (x : RegIdx) (b : Byte) : (s.writeV x b).mem = s.mem := rfl
@[simp] theorem writeV_history (s : State) (x : RegIdx) (b : Byte) : (s.writeV x b).history = s.history := rfl

/-! ### `writeI` -/

@[simp] theorem writeI_readV (s : State) (w : Word) (j : RegIdx) : (s.writeI w).readV j = s.readV j := rfl
@[simp] theorem writeI_i (s : State) (w : Word) : (s.writeI w).i = w := rfl
@[simp] theorem writeI_pc (s : State) (w : Word) : (s.writeI w).pc = s.pc := rfl
@[simp] theorem writeI_mem (s : State) (w : Word) : (s.writeI w).mem = s.mem := rfl
@[simp] theorem writeI_history (s : State) (w : Word) : (s.writeI w).history = s.history := rfl

/-! ### `writePC` and `advance` -/

@[simp] theorem writePC_readV (s : State) (w : Word) (j : RegIdx) : (s.writePC w).readV j = s.readV j := rfl
@[simp] theorem writePC_i (s : State) (w : Word) : (s.writePC w).i = s.i := rfl
@[simp] theorem writePC_pc (s : State) (w : Word) : (s.writePC w).pc = w := rfl
@[simp] theorem writePC_mem (s : State) (w : Word) : (s.writePC w).mem = s.mem := rfl
@[simp] theorem writePC_history (s : State) (w : Word) : (s.writePC w).history = s.history := rfl

@[simp] theorem advance_readV (s : State) (j : RegIdx) : s.advance.readV j = s.readV j := rfl
@[simp] theorem advance_v (s : State) : s.advance.v = s.v := rfl
@[simp] theorem advance_i (s : State) : s.advance.i = s.i := rfl
@[simp] theorem advance_pc (s : State) : s.advance.pc = s.pc + 2#16 := rfl
@[simp] theorem advance_written (s : State) : s.advance.written = s.written := rfl
@[simp] theorem advance_isWritten (s : State) (r : Reg) : s.advance.isWritten r = s.isWritten r := by cases r <;> rfl
@[simp] theorem advance_mem (s : State) : s.advance.mem = s.mem := rfl
@[simp] theorem advance_history (s : State) : s.advance.history = s.history := rfl

/-! ### `report` -/

@[simp] theorem report_readV (s : State) (st : Status) (j : RegIdx) : (s.report st).readV j = s.readV j := rfl
@[simp] theorem report_v (s : State) (st : Status) : (s.report st).v = s.v := rfl
@[simp] theorem report_i (s : State) (st : Status) : (s.report st).i = s.i := rfl
@[simp] theorem report_pc (s : State) (st : Status) : (s.report st).pc = s.pc := rfl
@[simp] theorem report_written (s : State) (st : Status) : (s.report st).written = s.written := rfl
@[simp] theorem report_isWritten (s : State) (st : Status) (r : Reg) : (s.report st).isWritten r = s.isWritten r := by
  cases r <;> rfl
@[simp] theorem report_mem (s : State) (st : Status) : (s.report st).mem = s.mem := rfl
@[simp] theorem report_history (s : State) (st : Status) : (s.report st).history = st :: s.history := rfl

/-! ### `writeCarry`: a write of `VF` -/

theorem writeCarry_eq (s : State) (c : BitVec 1) : s.writeCarry c = s.writeV vf (c.setWidth 8) := rfl

@[simp] theorem readV_writeCarry (s : State) (c : BitVec 1) (y : RegIdx) :
    (s.writeCarry c).readV y = if y = vf then c.setWidth 8 else s.readV y := by
  simp [State.writeCarry]
@[simp] theorem isWritten_writeCarry (s : State) (c : BitVec 1) (r : Reg) :
    (s.writeCarry c).isWritten r = (decide (r = .v vf) || s.isWritten r) := by
  simp [State.writeCarry]
@[simp] theorem writeCarry_i (s : State) (c : BitVec 1) : (s.writeCarry c).i = s.i := rfl
@[simp] theorem writeCarry_pc (s : State) (c : BitVec 1) : (s.writeCarry c).pc = s.pc := rfl
@[simp] theorem writeCarry_mem (s : State) (c : BitVec 1) : (s.writeCarry c).mem = s.mem := rfl
@[simp] theorem writeCarry_history (s : State) (c : BitVec 1) : (s.writeCarry c).history = s.history := rfl

/-! ### Operands -/

@[simp] theorem withOperand_imm (s : State) (nn : Byte) (k : Byte → Host.Outcome State Fault Refusal) :
    s.withOperand (.imm nn) k = k nn := rfl

/-- Everything the read of a register operand can do: go on with its value, or stop where it is unwritten. -/
theorem withOperand_reg (s : State) (x : RegIdx) (k : Byte → Host.Outcome State Fault Refusal) :
    s.withOperand (.reg x) k =
      if s.isWritten (.v x) = true then k (s.readV x) else .fault (.unwrittenRegister (.v x)) := by
  unfold State.withOperand State.operand State.checked
  by_cases h : s.isWritten (.v x) = true <;> simp [h]

theorem withOperand_written {s : State} {x : RegIdx} (h : s.isWritten (.v x) = true)
    (k : Byte → Host.Outcome State Fault Refusal) : s.withOperand (.reg x) k = k (s.readV x) := by
  simp [withOperand_reg, h]

theorem withOperand_unwritten {s : State} {x : RegIdx} (h : s.isWritten (.v x) = false)
    (k : Byte → Host.Outcome State Fault Refusal) :
    s.withOperand (.reg x) k = .fault (.unwrittenRegister (.v x)) := by
  simp [withOperand_reg, h]

/-! ### `complete`: always a next state, with one more status and nothing else -/

theorem complete_eq (s : State) (instr : Instr) :
    s.complete instr = .next (s.report (.executed (encode instr) instr)) := rfl

/-! ### `initializeCpu` -/

@[simp] theorem initializeCpu_readV (s : State) (j : RegIdx) : (initializeCpu s).readV j = 0#8 := by
  simp [initializeCpu, State.readV]
@[simp] theorem initializeCpu_i (s : State) : (initializeCpu s).i = 0#16 := rfl
@[simp] theorem initializeCpu_pc (s : State) : (initializeCpu s).pc = Config.resetPc := rfl
@[simp] theorem initializeCpu_written (s : State) : (initializeCpu s).written = Written.all := rfl
@[simp] theorem initializeCpu_isWritten (s : State) (r : Reg) : (initializeCpu s).isWritten r = true :=
  written_all_iff.1 rfl r
@[simp] theorem initializeCpu_mem (s : State) : (initializeCpu s).mem = s.mem := rfl
@[simp] theorem initializeCpu_history (s : State) : (initializeCpu s).history = s.history := rfl

/-! ### `construct` -/

@[simp] theorem construct_mem (f : Fin Config.memSize → Byte) (v : Vector Byte 16) (i pc : Word) :
    (State.construct f v i pc).mem = Memory.ofInit f := rfl
@[simp] theorem construct_v (f : Fin Config.memSize → Byte) (v : Vector Byte 16) (i pc : Word) :
    (State.construct f v i pc).v = v := rfl
@[simp] theorem construct_i (f : Fin Config.memSize → Byte) (v : Vector Byte 16) (i pc : Word) :
    (State.construct f v i pc).i = i := rfl
@[simp] theorem construct_pc (f : Fin Config.memSize → Byte) (v : Vector Byte 16) (i pc : Word) :
    (State.construct f v i pc).pc = pc := rfl
@[simp] theorem construct_isWritten (f : Fin Config.memSize → Byte) (v : Vector Byte 16) (i pc : Word) (r : Reg) :
    (State.construct f v i pc).isWritten r = false := by
  cases r <;> simp [State.isWritten, State.construct, Written.none]
@[simp] theorem construct_history (f : Fin Config.memSize → Byte) (v : Vector Byte 16) (i pc : Word) :
    (State.construct f v i pc).history = [] := rfl

end Sys2Proof.Machine
end

