-- ==== Sys2Proof/Laws/Step.lean ====
section
/-! SUPPORT. What the fetch, a step and a transaction can do, said once. -/

namespace Sys2Proof.Machine

/-- The fetch succeeds exactly when `PC` is written and both bytes are in memory, and then gives them big-endian. -/
theorem fetch_eq_ok_iff {s : State} {op : Word} :
    fetch s = .ok op ↔
      s.isWritten .pc = true ∧ s.pc.toNat + 1 < Config.memSize ∧
        op = assemble (s.mem.get s.pc.toNat) (s.mem.get (s.pc.toNat + 1)) := by
  unfold fetch
  cases hw : s.isWritten .pc with
  | false => simp [checked_of_unwritten hw]
  | true =>
    rw [checked_of_written hw]
    by_cases h' : s.pc.toNat + 1 < Config.memSize
    · have h : s.pc.toNat < Config.memSize := by omega
      simp [memRead_ok h, memRead_ok h', h', eq_comm]
    · by_cases h : s.pc.toNat < Config.memSize
      · simp [memRead_ok h, memRead_error (Nat.not_lt.1 h'), h']
      · simp [memRead_error (Nat.not_lt.1 h), h']

/-- A fetch from an unwritten `PC` is a fault of the model. -/
theorem fetch_unwritten {s : State} (h : s.isWritten .pc = false) : fetch s = .error (.unwrittenRegister .pc) := by
  simp [fetch, checked_of_unwritten h]

/-- A fetch from a written `PC` that fails names the first address out of range in read order. -/
theorem fetch_out_of_range {s : State} (hw : s.isWritten .pc = true) (h : Config.memSize ≤ s.pc.toNat + 1) :
    fetch s = .error (.addressOutOfRange
      (if Config.memSize ≤ s.pc.toNat then s.pc.toNat else s.pc.toNat + 1)) := by
  unfold fetch
  rw [checked_of_written hw]
  by_cases h1 : Config.memSize ≤ s.pc.toNat
  · simp [memRead_error h1, h1]
  · simp [memRead_ok (Nat.lt_of_not_le h1), memRead_error h, h1]

/-- Everything a successful step does: it fetches an opcode and runs its decoding on the advanced state. -/
theorem step_next_iff {s t : State} :
    step s = .next t ↔ ∃ op, fetch s = .ok op ∧ exec (decode op) s.advance = .next t := by
  unfold step
  cases h : fetch s with
  | error f => simp
  | ok op => simp

theorem step_of_fetch {s : State} {op : Word} (h : fetch s = .ok op) : step s = exec (decode op) s.advance := by
  simp [step, h]

theorem step_of_fetch_error {s : State} {f : Fault} (h : fetch s = .error f) : step s = .fault f := by
  simp [step, h]

/-- What a step transaction returns when the step completes. -/
theorem transact_step_next {s t : State} (h : step s = .next t) : transact .step s = (t, t.statusOutput) := by
  simp [transact, h]

/-- What a step transaction returns when the fetch fails. -/
theorem transact_step_fault {s : State} {f : Fault} (h : step s = .fault f) : transact .step s = s.raise f := by
  simp [transact, h]

/-- The status output is the status reported last. -/
theorem statusOutput_of_history {s : State} {st : Status} {h : List Status} (e : s.history = st :: h) :
    s.statusOutput = .status st := by
  simp [State.statusOutput, e]

/-- Placing an opcode where a fetch can succeed writes its two bytes and nothing else. -/
theorem placeOpcode_eq {s : State} (h : s.pc.toNat + 1 < Config.memSize) (op : Word) :
    s.placeOpcode op = { s with mem := s.mem.putBytes s.pc.toNat (opBytes op) } := by
  have : ¬ Config.memSize < s.pc.toNat + (opBytes op).length := by
    simp only [opBytes, List.length_cons, List.length_nil]
    omega
  simp [State.placeOpcode, loadBytes, this]

/-! ### Runs of the host's `Core.run` -/

theorem run_zero (s : State) : Sys2Proof.core.run 0 s = .next s := rfl

theorem run_succ_of_next {s t : State} (h : step s = .next t) (k : Nat) :
    Sys2Proof.core.run (k + 1) s = Sys2Proof.core.run k t := by
  have h' : Sys2Proof.core.step s = .next t := h
  simp only [Host.Core.run, h']

theorem run_succ_of_fault {s : State} {f : Fault} (h : step s = .fault f) (k : Nat) :
    Sys2Proof.core.run (k + 1) s = .fault f := by
  have h' : Sys2Proof.core.step s = .fault f := h
  simp only [Host.Core.run, h']

/-! ### Conditions -/

/-- A fault that ends an operation changes nothing but the record. -/
@[simp] theorem raise_readV (s : State) (f : Fault) (j : RegIdx) : (s.raise f).1.readV j = s.readV j := by
  cases f <;> rfl
@[simp] theorem raise_v (s : State) (f : Fault) : (s.raise f).1.v = s.v := by cases f <;> rfl
@[simp] theorem raise_i (s : State) (f : Fault) : (s.raise f).1.i = s.i := by cases f <;> rfl
@[simp] theorem raise_pc (s : State) (f : Fault) : (s.raise f).1.pc = s.pc := by cases f <;> rfl
@[simp] theorem raise_mem (s : State) (f : Fault) : (s.raise f).1.mem = s.mem := by cases f <;> rfl
@[simp] theorem raise_written (s : State) (f : Fault) : (s.raise f).1.written = s.written := by cases f <;> rfl

/-- A condition of the block is recorded and returned. -/
theorem raise_of_status {f : Fault} {st : Status} (h : f.status = some st) (s : State) :
    s.raise f = (s.report st, .status st) := by
  simp [State.raise, h]

/-- A fault of the model is neither a status nor recorded. -/
theorem raise_unwritten (s : State) (r : Reg) :
    s.raise (.unwrittenRegister r) = (s, .modelFault (.unwrittenRegister r)) := rfl

/-- A host read of a register changes nothing, and gives its value or the model's fault. -/
theorem hostRead_eq {α : Type} (s : State) (r : Reg) (a : α) (k : α → Response) :
    s.hostRead r a k =
      (s, if s.isWritten r = true then k a else .modelFault (.unwrittenRegister r)) := by
  unfold State.hostRead State.checked
  by_cases h : s.isWritten r = true <;> simp [h, raise_unwritten]

end Sys2Proof.Machine
end

