-- ==== Sys2Proof/Tests/Slice0.lean ====
section
/-! SUPPORT. The model's own tests.  Expected results are the spec's: its worked examples S<n> and derived vectors T<n>
(95_test_vectors.md), or hand calculation from the rule named.  Witnesses show states that meet the hypotheses of the
statements. -/

namespace Sys2Proof.Tests

open Sys2Proof.Machine

/-! ### WellFormed: one ill-formed term for each check -/

theorem test_wf_refuses_ldImm_word : (Instr.unimpl 0x6005).wellFormed = false := by decide
theorem test_wf_refuses_addImm_word : (Instr.unimpl 0x7F80).wellFormed = false := by decide
theorem test_wf_refuses_addReg_word : (Instr.unimpl 0x8AB4).wellFormed = false := by decide
theorem test_wf_accepts_others : (Instr.unimpl 0x8015).wellFormed = true ∧ (Instr.unimpl 0x9FF4).wellFormed = true := by
  decide

/-! ### Decode: words written out bit by bit (section 2.1 of the vectors) -/

theorem test_decode_ldImm : decode 0b0110101001011100#16 = .ldImm 10 0x5C := by decide
theorem test_decode_ldImm_vf : decode 0b0110111111111111#16 = .ldImm 15 0xFF := by decide
theorem test_decode_addImm : decode 0b0111111110000000#16 = .addImm 15 0x80 := by decide
theorem test_decode_addReg : decode 0b1000101010110100#16 = .addReg 10 11 := by decide
theorem test_decode_unimpl_class8 : decode 0b1000000000010101#16 = .unimpl 0x8015 := by decide
theorem test_decode_unimpl_class9 : decode 0b1001111111110100#16 = .unimpl 0x9FF4 := by decide
theorem test_decode_unimpl_class0 : decode 0b0000000000000000#16 = .unimpl 0x0000 := by decide
theorem test_encode_addReg : encode (.addReg 10 11) = 0x8AB4 := by decide
theorem test_encode_ldImm : encode (.ldImm 10 0x5C) = 0x6A5C := by decide
theorem test_decode_table_word : decodeTableWord 16 0x7005 = some (.addImm 0 5) := by decide
theorem test_decode_truncated : decodeBytes [0x60] = .error .truncated := by rfl

/-! ### Small states -/

/-- After `initialize()`, with memory and `PC` given. -/
def at_ (pc : Word) (mem : Memory) : State := { State.reset with pc := pc, mem := mem }

/-- After `initialize()`, with the opcode `op` at 0x200. -/
def holding (op : Nat) : State := State.reset.withFetchWord 16 op

/-- What a step gives: a register and `PC`, or nothing where it stops. -/
def regAfter (x : RegIdx) : Host.Outcome State Fault Refusal → Option (Byte × Word)
  | .next t => some (t.readV x, t.pc)
  | .fault _ => none
  | .refused _ => none

/-- The fault a step gives. -/
def faultOf : Host.Outcome State Fault Refusal → Option Fault
  | .next _ => none
  | .fault f => some f
  | .refused _ => none

/-! ### The instructions, one step each -/

/-- S7. -/
theorem test_ldImm : regAfter 0 (step (at_ 0x200 [(0x200, 0x60), (0x201, 0x05)])) = some (5, 0x202) := by decide
/-- TL3. -/
theorem test_ldImm_vf : regAfter 15 (step (holding 0x6FFF)) = some (0xFF, 0x202) := by decide
/-- TA1: the sum. -/
theorem test_addImm_wraps : regAfter 0 (step ((holding 0x7005).writeV 0 0xFF)) = some (0x04, 0x202) := by decide
/-- TA1: `VF` unchanged, though the sum wraps. -/
theorem test_addImm_keeps_vf :
    regAfter 15 (step (((holding 0x7005).writeV 0 0xFF).writeV 15 0xAA)) = some (0xAA, 0x202) := by decide
/-- TR2, S10. -/
theorem test_addReg_carry :
    let r := step (((holding 0x8014).writeV 0 200).writeV 1 100)
    regAfter 0 r = some (44, 0x202) ∧ regAfter 15 r = some (1, 0x202) := by decide
/-- TR10: `Y` = 15 reads the old `VF`; TR11: `X` = 15 ends as the carry. -/
theorem test_addReg_vf_operand :
    regAfter 1 (step (((holding 0x81F4).writeV 1 0xFF).writeV 15 1)) = some (0, 0x202) ∧
    regAfter 15 (step (((holding 0x8F24).writeV 15 5).writeV 2 3)) = some (0, 0x202) := by decide
/-- TU1, S12. -/
theorem test_unimpl_reports : (transact .step (at_ 0x200 [])).2 = .status (.unimplementedOpcode 0x0000) := by decide
/-- TU4: no jump; TU7: no move. -/
theorem test_unimpl_no_effect :
    regAfter 0 (step (holding 0x1200)) = some (0, 0x202) ∧
    regAfter 0 (step (((holding 0x8010).writeV 0 5).writeV 1 7)) = some (5, 0x202) := by decide

/-! ### Fetch (section 2.2) -/

/-- TF2: an odd `PC`. -/
theorem test_fetch_odd : regAfter 0 (step (at_ 0x201 [(0x201, 0x70), (0x202, 0x01)])) = some (1, 0x203) := by decide
/-- TF3: the last opcode of memory. -/
theorem test_fetch_last : regAfter 1 (step (at_ 0xFFE [(0xFFE, 0x61), (0xFFF, 0x07)])) = some (7, 0x1000) := by decide
/-- TF4, TF5, TF6, TF7. -/
theorem test_fetch_faults :
    faultOf (step (at_ 0xFFF [])) = some (.addressOutOfRange 0x1000) ∧
    faultOf (step (at_ 0x1000 [])) = some (.addressOutOfRange 0x1000) ∧
    faultOf (step (at_ 0x1001 [])) = some (.addressOutOfRange 0x1001) ∧
    faultOf (step (at_ 0xFFFF [])) = some (.addressOutOfRange 0xFFFF) := by decide

/-! ### Host operations (sections 2.7 and 2.8) -/

/-- TM4, TM6. -/
theorem test_read_out_of_range :
    (transact (.readByte 4096) (at_ 0x200 [])).2 = .status (.addressOutOfRange 4096) ∧
    (transact (.readByte 0x10000) (at_ 0x200 [])).2 = .status (.addressOutOfRange 0x10000) := by decide
/-- TM3. -/
theorem test_write_then_read :
    (transact (.readByte 4095) (transact (.writeByte 4095 0x11) (at_ 0x200 [])).1).2 = .byte 0x11 := by decide
/-- TM8, TM9. -/
theorem test_load_bounds :
    (transact (.loadBytes 0xFFE [1, 2]) (at_ 0x200 [])).1.mem = [(0xFFE, 1), (0xFFF, 2)] ∧
    (transact (.loadBytes 0xFFE [1, 2, 3]) (at_ 0x200 [])).2 = .status (.loadOverflow 0xFFE 3) ∧
    (transact (.loadBytes 0xFFE [1, 2, 3]) (at_ 0x200 [])).1.mem = [] := by decide
/-- TZ1, from a state with `I`, `PC`, `V3` and a byte of memory set. -/
theorem test_initialize :
    let s := initializeCpu (((at_ 0x0ABC [(0x200, 0x60)]).writeI 0x1234).writeV 3 4)
    s.readV 3 = 0 ∧ s.i = 0 ∧ s.pc = 0x200 ∧ s.mem = [(0x200, 0x60)] := by decide

/-! ### Before `initialize()` (R158) -/

/-- The machine after construction, its unspecified register values chosen so that they would show: memory holds
`61 07` at 0x200 and `80 14` at 0x202. -/
def constructed : State :=
  { State.reset with v := Vector.replicate 16 9, pc := 0x200, mem := [(0x200, 0x61), (0x201, 0x07), (0x202, 0x80), (0x203, 0x14)], written := Written.none }

/-- R158: a step before `initialize()` reads an unwritten `PC`. -/
theorem test_step_before_initialize :
    faultOf (step constructed) = some (.unwrittenRegister .pc) ∧
    transact .step constructed = (constructed, .modelFault (.unwrittenRegister .pc)) := by decide
/-- R158: a host write of `PC` sets it; LD_IMM reads no register and sets `V1`; ADD_REG then reads the unwritten `V0`. -/
theorem test_host_write_sets_pc :
    regAfter 1 (step (constructed.writePC 0x200)) = some (7, 0x202) ∧
    faultOf (step (constructed.writePC 0x202)) = some (.unwrittenRegister (.v 0)) ∧
    faultOf (step ((constructed.writePC 0x202).writeV 0 5)) = some (.unwrittenRegister (.v 1)) ∧
    regAfter 0 (step (((constructed.writePC 0x202).writeV 0 5).writeV 1 7)) = some (12, 0x204) := by decide
/-- R155, R158: `initialize()` sets every register. -/
theorem test_initialize_sets_all : (initializeCpu constructed).AllWritten := by decide

/-! ### Witnesses: states that meet the hypotheses of the statements -/

/-- `InitializeSetsRegistersOnly`: two states that differ in registers only. -/
theorem witness_same_memory_other_registers :
    (at_ 0x200 [(5, 1)]).mem = ((at_ 0x300 [(5, 1)]).writeV 2 9).mem ∧
    (at_ 0x200 [(5, 1)]).history = ((at_ 0x300 [(5, 1)]).writeV 2 9).history := by decide

/-- `ReadPortChecksTheAddress`, `WriteByteWritesOneCell`: a canonical memory and the addresses where the clauses meet. -/
theorem witness_canonical_memory : (at_ 0x200 [(5, 1), (4095, 2)]).mem.wf ∧ 4095 < Config.memSize ∧
    Config.memSize ≤ 4096 := by decide

/-- `ConstructedMemoryReadsAsMemInit`: the last address of memory. -/
theorem witness_last_address : 4095 < Config.memSize := by decide

/-- `LoadBytesIsAllOrNothing`, `LoadBytesEdgeCases`: both sides of the bound, with an index and an outside address. -/
theorem witness_load_bounds :
    Memory.wf [(5, 1)] ∧ 4095 + [7#8].length ≤ Config.memSize ∧ 0 < [7#8].length ∧ 4094 < 4095 ∧
    Config.memSize < 4095 + [7#8, 8#8].length ∧ 4096 ≤ Config.memSize ∧ Config.memSize < 4097 := by decide

/-- `EqualBytesAreEqualMemories`: two canonical memories, made by writes in different orders. -/
theorem witness_equal_memories :
    ((Memory.put [] 9 2).put 5 1).wf ∧ ((Memory.put [] 5 1).put 9 2).wf ∧
    (Memory.put [] 9 2).put 5 1 = (Memory.put [] 5 1).put 9 2 := by decide

/-- `HostWriteIsSeenByTheNextFetch`, `PlacedInstructionRunsNext`, `StepFailsExactlyOutsideMemory`: canonical memory and the
last `PC` that can fetch, and the first ones that cannot. -/
theorem witness_can_fetch :
    (at_ 0xFFE [(5, 1)]).mem.wf ∧ (at_ 0xFFE [(5, 1)]).CanFetch ∧ ¬ (at_ 0xFFF []).CanFetch ∧
    (at_ 0xFFF []).pc.toNat + 1 = Config.memSize ∧ Config.memSize ≤ (at_ 0x1000 []).pc.toNat ∧
    (Instr.addReg 15 0).wellFormed = true := by decide

/-- `DecodeOfEncodeIsTheInstruction`: a well-formed instruction of each constructor. -/
theorem witness_well_formed :
    (Instr.ldImm 15 0xFF).wellFormed = true ∧ (Instr.addImm 0 0).wellFormed = true ∧
    (Instr.addReg 15 15).wellFormed = true ∧ (Instr.unimpl 0xFFFF).wellFormed = true := by decide

/-- `DecodeFollowsTheOpcodeMap`: words at the edges of each clause. -/
theorem witness_opcode_map :
    (0x6000#16).toNat / 4096 = 6 ∧ (0x6FFF#16).toNat / 4096 = 6 ∧ (0x7000#16).toNat / 4096 = 7 ∧
    (0x7FFF#16).toNat / 4096 = 7 ∧ (0x8004#16).toNat / 4096 = 8 ∧ (0x8004#16).toNat % 16 = 4 ∧
    (0x8FF4#16).toNat / 4096 = 8 ∧ (0x8FF4#16).toNat % 16 = 4 ∧ (0x8FF5#16).toNat / 4096 = 8 ∧
    (0x8FF5#16).toNat % 16 ≠ 4 ∧ (0x5FFF#16).toNat / 4096 = 5 ∧ (0x9004#16).toNat / 4096 = 9 := by decide

/-- `OpcodeTableCoversEachOpcodeOnce`, `UnimplChangesOnlyPcAndReports`: a row of the table and an opcode it covers. -/
theorem witness_table_row :
    (⟨0xF00F, 0x8005, .unimpl⟩ : OpcodeRow) ∈ opcodeTable ∧ OpcodeRow.covers ⟨0xF00F, 0x8005, .unimpl⟩ 0x8FF5 = true := by
  decide

/-- `FetchAssemblesBigEndian`, `StepRunsTheDecodedInstruction`: both reads succeed, at an odd `PC` and at the last one. -/
theorem witness_both_reads :
    let s := at_ 0x201 [(0x201, 0x80), (0x202, 0x14)]
    s.isWritten .pc = true ∧ memRead s.mem s.pc.toNat = .ok 0x80 ∧ memRead s.mem (s.pc.toNat + 1) = .ok 0x14 ∧
    decode (assemble 0x80 0x14) = .addReg 0 1 ∧ (Instr.addReg 0 1).wellFormed = true := ⟨rfl, rfl, rfl, by decide, rfl⟩
theorem witness_both_reads_at_the_end :
    let s := at_ 0xFFE [(0xFFE, 0xFF), (0xFFF, 0xFF)]
    s.isWritten .pc = true ∧ memRead s.mem s.pc.toNat = .ok 0xFF ∧ memRead s.mem (s.pc.toNat + 1) = .ok 0xFF :=
  ⟨rfl, rfl, rfl⟩

/-- `ConditionsArePrecise`: a request for each condition. -/
theorem witness_each_condition :
    (transact .step (at_ 0xFFF [])).2 = .status (.addressOutOfRange 0x1000) ∧
    (transact (.writeByte 4096 0) (at_ 0 [])).2 = .status (.addressOutOfRange 4096) ∧
    (transact (.loadBytes 4096 [1]) (at_ 0 [])).2 = .status (.loadOverflow 4096 1) ∧
    (transact .step (at_ 0xFFE [])).2 = .status (.unimplementedOpcode 0) := by decide

/-- `StepAdvancesPcByTwo`, `StepReportsExactlyOneStatus`, `EveryInstructionCompletes`: a fetched opcode whose operands are
set, and one whose operands are not. -/
theorem witness_operands :
    fetch (holding 0x8014) = .ok 0x8014#16 ∧ (holding 0x8014).OperandsWritten (decode 0x8014) ∧
    (holding 0x8014).isWritten .pc = true ∧
    fetch (constructed.writePC 0x202) = .ok 0x8014#16 ∧ ¬ (constructed.writePC 0x202).OperandsWritten (decode 0x8014) :=
  ⟨rfl, by decide, rfl, rfl, by decide⟩

/-- `StepAdvancesPcByTwo`, `StepKeepsMemoryAndIndex`, `EveryInstructionCompletes`: a step that completes, `PC` in an
instruction as it was. -/
theorem witness_step_completes :
    step (at_ 0xFFE [(0xFFE, 0x61), (0xFFF, 0x07)]) =
      exec (.ldImm 1 7) (at_ 0x1000 [(0xFFE, 0x61), (0xFFF, 0x07)]) ∧
    exec (.ldImm 1 7) (at_ 0x1000 []) =
      .next (((at_ 0x1000 []).writeV 1 7).report (.executed 0x6107 (.ldImm 1 7))) := ⟨rfl, rfl⟩

/-- `StepWritesOnlyTheNamedRegisters`, `LdImmLoadsTheImmediate`: a fetched opcode of `6XNN` whose step changes `V1`. -/
theorem witness_fetched_ldImm :
    fetch (holding 0x6107) = .ok 0x6107#16 ∧ 0x6107#16 &&& 0xF000#16 = 0x6000#16 ∧
    regAfter 1 (step (holding 0x6107)) = some (7, 0x202) ∧ (holding 0x6107).readV 1 = 0 := ⟨rfl, by decide, by decide, rfl⟩

/-- `AddImmWrapsAndWritesNoCarry`, `VfIsAnOrdinaryDestination`: a fetched opcode of `7XNN` with `X` other than 15, its
register and `VF` set. -/
theorem witness_fetched_addImm :
    fetch (holding 0x7005) = .ok 0x7005#16 ∧ 0x7005#16 &&& 0xF000#16 = 0x7000#16 ∧ (0 : RegIdx) ≠ 15 ∧
    (holding 0x7005).isWritten (.v 0) = true ∧ (holding 0x7005).isWritten (.v 15) = true :=
  ⟨rfl, by decide, by decide, rfl, rfl⟩

/-- `AddRegWritesSumThenCarry`, `AddRegReadsBeforeItWrites`: a fetched opcode of `8XY4`, and registers other than `VF`, all
set. -/
theorem witness_fetched_addReg :
    fetch (holding 0x8014) = .ok 0x8014#16 ∧ 0x8014#16 &&& 0xF00F#16 = 0x8004#16 ∧ (0 : RegIdx) ≠ 15 ∧
    (14 : RegIdx) ≠ 15 ∧ (holding 0x8014).AllWritten ∧ (holding 0x8014).isWritten (.v 0) = true ∧
    (holding 0x8014).isWritten (.v 14) = true ∧ (holding 0x8014).isWritten (.v 15) = true :=
  ⟨rfl, by decide, by decide, by decide, rfl, rfl, rfl, rfl⟩

/-- `UnimplChangesOnlyPcAndReports`, `OtherClass8OpcodesAreUnimplemented`, `StepReportsExactlyOneStatus`: fetched opcodes
without a handler and with one, and a failed fetch. -/
theorem witness_fetched_unimpl :
    fetch (holding 0x8FF5) = .ok 0x8FF5#16 ∧ decode 0x8FF5 = .unimpl 0x8FF5 ∧ (0x8FF5#16).toNat / 4096 = 8 ∧
    (0x8FF5#16).toNat % 16 ≠ 4 ∧ decode 0x8014 ≠ .unimpl 0x8014 ∧
    fetch (at_ 0xFFF []) = .error (.addressOutOfRange 0x1000) := ⟨rfl, by decide, by decide, by decide, by decide, rfl⟩

/-- `InstructionsReadOnlyTheNamedRegisters`: two states that agree on `V0` and `V1` and on nothing else. -/
theorem witness_agree_on_operands :
    (((at_ 0x200 []).writeV 0 7).writeV 9 1).readV 0 = (((at_ 0x300 [(5, 1)]).writeV 0 7).writeV 15 3).readV 0 ∧
    (((at_ 0x200 []).writeV 0 7).writeV 9 1).readV 1 = (((at_ 0x300 [(5, 1)]).writeV 0 7).writeV 15 3).readV 1 ∧
    (((at_ 0x200 []).writeV 0 7).writeV 9 1).AllWritten ∧ (((at_ 0x300 [(5, 1)]).writeV 0 7).writeV 15 3).AllWritten := by
  decide

/-- `UnwrittenReadIsAModelFault`, `RegisterPortSetsExactlyOne`: an unwritten register of each name, one operand set and the
other not, and the registers set. -/
theorem witness_unwritten :
    constructed.isWritten .pc = false ∧ constructed.isWritten .i = false ∧ constructed.isWritten (.v 15) = false ∧
    (constructed.writeV 0 5).isWritten (.v 0) = true ∧ (constructed.writeV 0 5).isWritten (.v 1) = false ∧
    (constructed.writeI 3).isWritten .i = true ∧ (constructed.writePC 3).isWritten .pc = true := by decide

/-- `StepIgnoresUnwrittenValues`: two machines that differ in unwritten values only. -/
theorem witness_agree_on_written :
    AgreeOnWritten (constructed.writePC 0x200) { constructed.writePC 0x200 with v := Vector.replicate 16 3, i := 0x77 } ∧
    constructed.v ≠ Vector.replicate 16 3 := by decide

/-- `WrittenRegistersStayWritten`: a register set and not all set, and all set. -/
theorem witness_written :
    (constructed.writeV 0 5).isWritten (.v 0) = true ∧ ¬ (constructed.writeV 0 5).AllWritten ∧ (at_ 0 []).AllWritten := by
  decide

/-- `RecordIsTheReturnedStatuses`: a request that returns a status and one that returns none. -/
theorem witness_status_and_none :
    (transact .step (holding 0x6107)).2 = .status (.executed 0x6107 (.ldImm 1 7)) ∧
    (transact .readPC (holding 0x6107)).2 = .word 0x200 := by decide

/-- `UnimplChangesOnlyPcAndReports`: an opcode without a handler at the last `PC` that can fetch. -/
theorem witness_unimpl_at_the_end :
    fetch (at_ 0xFFE [(0xFFE, 0xFF), (0xFFF, 0xFF)]) = .ok 0xFFFF#16 ∧ decode 0xFFFF = .unimpl 0xFFFF :=
  ⟨rfl, by decide⟩

/-- `StepKeepsTheInvariant`, `TransactionsKeepTheInvariant`: a state with memory and a record, not the reset state. -/
theorem witness_invariant :
    ((at_ 0xFFE [(5, 1), (9, 2)]).report (.unimplementedOpcode 0x8015)).Inv ∧
    regAfter 0 (step ((at_ 0xFFE [(5, 1), (9, 2)]).report (.unimplementedOpcode 0x8015))) = some (0, 0x1000) := by decide

/-- `StepIgnoresTheIndexRegister`, `StepIgnoresTheRecord`: a step that completes and one that fails. -/
theorem witness_next_and_fault :
    regAfter 1 (step (holding 0x6107)) = some (7, 0x202) ∧ faultOf (step (at_ 0x1000 [])) = some (.addressOutOfRange 0x1000) := by
  decide

/-- `StepReadsOnlyTheFetchedBytes`: two memories that agree at `PC` and `PC + 1` only. -/
theorem witness_same_fetched_bytes :
    memRead [(0x200, 0x61), (0x201, 0x07), (0x202, 9)] 0x200 = memRead [(0x1FF, 3), (0x200, 0x61), (0x201, 0x07)] 0x200 ∧
    memRead [(0x200, 0x61), (0x201, 0x07), (0x202, 9)] 0x201 = memRead [(0x1FF, 3), (0x200, 0x61), (0x201, 0x07)] 0x201 :=
  ⟨rfl, rfl⟩

/-- `ExecutionIsStraightLine`, `RunFromTheEntryPointLeavesMemory`: the entry point, and the longest run from it. -/
theorem witness_entry_point :
    (at_ 0x200 [(0x200, 0x61)]).pc = 0x200#16 ∧ (at_ 0x200 [(0x200, 0x61)]).AllWritten ∧ (at_ 0x200 []).AllWritten ∧ (at_ 0x200 []).pc.toNat + 2 * 1792 ≤ Config.memSize := by decide

/-- `FailedFetchRepeats`: both kinds of `PC` whose fetch fails, requests that leave `PC`, and a write of `PC` at each end of
the range. -/
theorem witness_failed_fetch :
    (at_ 0xFFF [(0xFFF, 1)]).isWritten .pc = true ∧ Config.memSize ≤ (at_ 0xFFF [(0xFFF, 1)]).pc.toNat + 1 ∧
    Config.memSize ≤ (at_ 0xFFFF []).pc.toNat + 1 ∧ (at_ 0xFFF [(0xFFF, 1)]).AllWritten ∧
    (∀ q ∈ [Request.loadBytes 0xFFF [1], .writeByte 0 1, .writeV 3 1, .writeI 5, .readByte 9, .readPC, .step],
      q.leavesPc = true) ∧
    (0#16).toNat + 1 < Config.memSize ∧ (0xFFE#16).toNat + 1 < Config.memSize := by decide
/-- R145: the failing fetch survives a load and register writes, and a write of `PC` ends it. -/
theorem test_failed_fetch_ends_with_pc :
    let s := transactAll [.loadBytes 0 [0x61, 0x07], .writeV 3 1, .writeI 5] (at_ 0x1000 [])
    (transact .step s).2 = .status (.addressOutOfRange 0x1000) ∧
    regAfter 1 (step (transact (.writePC 0) s).1) = some (7, 2) := by decide

/-- `CleanRunExecutedOnlyImplemented`: a step after which no condition is on record. -/
theorem witness_clean_run : (transactAll (List.replicate 1 .step) (holding 0x6107)).Clean ∧ (holding 0x6107).AllWritten ∧ 0 < 1 := by
  decide

/-- `PolicyOnlyStopsTheRun`: a policy that stops at an unimplemented opcode, on a program that meets one. -/
theorem witness_policy :
    (hostRun (fun r => if r = .status (.unimplementedOpcode 0) then .stop else .goOn) 3 (holding 0x6107)).pc = 0x204 := by
  decide

end Sys2Proof.Tests
end

section
/-! ### What an instruction does: the state it completes in, and when it completes (R96, R110, R111, R122, R97, R158) -/

namespace Sys2Proof.Machine

/-- The state in which an instruction completes, its operands taken as set; `exec_next_iff` ties it to `exec`. -/
def State.afterExec (s : State) : Instr → State
  | .ldImm x nn => (s.writeV x nn).report (.executed (encode (.ldImm x nn)) (.ldImm x nn))
  | .addImm x nn =>
    (s.writeV x (add8 (s.readV x) nn).1).report (.executed (encode (.addImm x nn)) (.addImm x nn))
  | .addReg x y =>
    ((s.writeV x (add8 (s.readV x) (s.readV y)).1).writeCarry (add8 (s.readV x) (s.readV y)).2).report
      (.executed (encode (.addReg x y)) (.addReg x y))
  | .unimpl op => s.report (.unimplementedOpcode op)

theorem exec_ldImm (x : RegIdx) (nn : Byte) (s : State) :
    exec (.ldImm x nn) s = .next (s.afterExec (.ldImm x nn)) := rfl

theorem exec_addImm (x : RegIdx) (nn : Byte) (s : State) :
    exec (.addImm x nn) s =
      if s.isWritten (.v x) = true then .next (s.afterExec (.addImm x nn))
      else .fault (.unwrittenRegister (.v x)) :=
  withOperand_reg s x _

/-- `X` is read before `Y`, so that it is the one named where neither is set. -/
theorem exec_addReg (x y : RegIdx) (s : State) :
    exec (.addReg x y) s =
      if s.isWritten (.v x) = true then
        if s.isWritten (.v y) = true then .next (s.afterExec (.addReg x y))
        else .fault (.unwrittenRegister (.v y))
      else .fault (.unwrittenRegister (.v x)) := by
  rw [exec, execAddReg, withOperand_reg, withOperand_reg]
  rfl

theorem exec_unimpl (op : Word) (s : State) :
    exec (.unimpl op) s = .next (s.afterExec (.unimpl op)) := rfl

/-! The read column of R22, one line per instruction: `ldImm` and `unimpl` read no register. -/

theorem operandsWritten_ldImm (s : State) (x : RegIdx) (nn : Byte) : s.OperandsWritten (.ldImm x nn) := by
  simp [State.OperandsWritten, sources]

theorem operandsWritten_addImm {s : State} {x : RegIdx} {nn : Byte} :
    s.OperandsWritten (.addImm x nn) ↔ s.isWritten (.v x) = true := by
  simp [State.OperandsWritten, sources]

theorem operandsWritten_addReg {s : State} {x y : RegIdx} :
    s.OperandsWritten (.addReg x y) ↔ s.isWritten (.v x) = true ∧ s.isWritten (.v y) = true := by
  simp [State.OperandsWritten, sources]

theorem operandsWritten_unimpl (s : State) (op : Word) : s.OperandsWritten (.unimpl op) := by
  simp [State.OperandsWritten, sources]

theorem exec_of_operandsWritten {i : Instr} {s : State} (h : s.OperandsWritten i) :
    exec i s = .next (s.afterExec i) := by
  cases i with
  | ldImm x nn => exact exec_ldImm x nn s
  | addImm x nn => rw [exec_addImm, if_pos (operandsWritten_addImm.1 h)]
  | addReg x y =>
    obtain ⟨hx, hy⟩ := operandsWritten_addReg.1 h
    rw [exec_addReg, if_pos hx, if_pos hy]
  | unimpl op => exact exec_unimpl op s

theorem operandsWritten_of_exec_next {i : Instr} {s t : State} (h : exec i s = .next t) : s.OperandsWritten i := by
  cases i with
  | ldImm x nn => exact operandsWritten_ldImm s x nn
  | addImm x nn =>
    rw [exec_addImm] at h
    split at h
    next hx => exact operandsWritten_addImm.2 hx
    next => cases h
  | addReg x y =>
    rw [exec_addReg] at h
    split at h
    next hx =>
      split at h
      next hy => exact operandsWritten_addReg.2 ⟨hx, hy⟩
      next => cases h
    next => cases h
  | unimpl op => exact operandsWritten_unimpl s op

/-- An instruction completes exactly where the registers it reads have been set, and in one state only. -/
theorem exec_next_iff {i : Instr} {s t : State} :
    exec i s = .next t ↔ s.OperandsWritten i ∧ t = s.afterExec i := by
  constructor
  · intro h
    have hw := operandsWritten_of_exec_next h
    rw [exec_of_operandsWritten hw] at h
    cases h
    exact ⟨hw, rfl⟩
  · rintro ⟨hw, rfl⟩
    exact exec_of_operandsWritten hw

/-- No instruction writes `PC` (R30). -/
@[simp] theorem afterExec_pc (s : State) (i : Instr) : (s.afterExec i).pc = s.pc := by
  cases i <;> rfl

theorem exec_next_pc {i : Instr} {s t : State} (h : exec i s = .next t) : t.pc = s.pc := by
  obtain ⟨-, rfl⟩ := exec_next_iff.1 h
  exact afterExec_pc s i

/-! ### What a step does to `PC` (R30, R92, R94) -/

/-- The advance does not wrap after a successful fetch, since that `PC` is below 4096. -/
theorem advance_pc_toNat_of_fetch {s : State} {op : Word} (h : fetch s = .ok op) :
    s.advance.pc.toNat = s.pc.toNat + 2 := by
  obtain ⟨-, hpc, -⟩ := fetch_eq_ok_iff.1 h
  have hbound : s.pc.toNat + 1 < 4096 := hpc
  have h2 : (2#16).toNat = 2 := rfl
  rw [advance_pc, BitVec.toNat_add, h2, Nat.mod_eq_of_lt (by omega)]

theorem step_completes_of_fetch {s : State} {op : Word} (hf : fetch s = .ok op)
    (hw : s.OperandsWritten (decode op)) : step s = .next (s.advance.afterExec (decode op)) := by
  have hw' : s.advance.OperandsWritten (decode op) := fun x hx => by
    rw [advance_isWritten]
    exact hw x hx
  rw [step_of_fetch hf]
  exact exec_of_operandsWritten hw'

theorem step_next_pc_toNat {s t : State} (h : step s = .next t) : t.pc.toNat = s.pc.toNat + 2 := by
  obtain ⟨op, hf, he⟩ := step_next_iff.1 h
  rw [exec_next_pc he]
  exact advance_pc_toNat_of_fetch hf

theorem transact_step_pc_of_fetch_error {s : State} {f : Fault} (h : fetch s = .error f) :
    (transact .step s).1.pc = s.pc := by
  rw [transact_step_fault (step_of_fetch_error h), raise_pc]

/-- Settles O23: the advance is the step's one write of `PC`, and it cannot wrap after a successful fetch. -/
theorem stepAdvancesPcByTwo : Obligations.StepAdvancesPcByTwo := by
  unfold Obligations.StepAdvancesPcByTwo
  refine ⟨?completes, ?advances, ?execKeeps, ?failedFetchKeeps⟩
  case completes => exact fun _ _ hf hw => ⟨_, step_completes_of_fetch hf hw⟩
  case advances => exact fun _ _ h => step_next_pc_toNat h
  case execKeeps => exact fun _ _ _ h => exec_next_pc h
  case failedFetchKeeps => exact fun _ _ h => transact_step_pc_of_fetch_error h

end Sys2Proof.Machine
end

section
/-! ### The host's accesses to memory: what each answers, and what a read gives after it (R50, R52 to R54) -/

namespace Sys2Proof.Machine

/-- A condition of the block changes nothing but the record (R140, R153). -/
theorem sameButHistory_report (s : State) (st : Status) : SameButHistory s (s.report st) :=
  ⟨report_v s st, report_i s st, report_pc s st, report_mem s st, report_written s st⟩

/-! Each access on both sides of its bound: below it completes, above it the condition is recorded and returned. -/

theorem transact_readByte_of_lt {s : State} {a : Nat} (h : a < Config.memSize) :
    transact (.readByte a) s = (s, .byte (s.mem.get a)) := by
  simp only [transact, memRead_ok h]

theorem transact_readByte_of_le {s : State} {a : Nat} (h : Config.memSize ≤ a) :
    transact (.readByte a) s = (s.report (.addressOutOfRange a), .status (.addressOutOfRange a)) := by
  simp only [transact, memRead_error h]
  exact raise_of_status rfl s

theorem transact_writeByte_of_lt {s : State} {a : Nat} {v : Byte} (h : a < Config.memSize) :
    transact (.writeByte a v) s = ({ s with mem := s.mem.put a v }, .done) := by
  simp only [transact, memWrite, if_neg (Nat.not_le.2 h)]

theorem transact_writeByte_of_le {s : State} {a : Nat} {v : Byte} (h : Config.memSize ≤ a) :
    transact (.writeByte a v) s = (s.report (.addressOutOfRange a), .status (.addressOutOfRange a)) := by
  simp only [transact, memWrite, if_pos h]
  exact raise_of_status rfl s

theorem transact_loadBytes_of_le {s : State} {start : Nat} {data : List Byte}
    (h : start + data.length ≤ Config.memSize) :
    transact (.loadBytes start data) s = ({ s with mem := s.mem.putBytes start data }, .done) := by
  simp only [transact, loadBytes, if_neg (Nat.not_lt.2 h)]

theorem transact_loadBytes_of_lt {s : State} {start : Nat} {data : List Byte}
    (h : Config.memSize < start + data.length) :
    transact (.loadBytes start data) s =
      (s.report (.loadOverflow start data.length), .status (.loadOverflow start data.length)) := by
  simp only [transact, loadBytes, if_pos h]
  exact raise_of_status rfl s

/-! The memory read port after a write. -/

theorem memRead_put {m : Memory} (hm : m.wf) {a : Nat} (ha : a < Config.memSize) (v : Byte) (b : Nat) :
    memRead (m.put a v) b = if b = a then .ok v else memRead m b := by
  by_cases hb : b = a
  · rw [if_pos hb, hb, memRead_ok ha, get_put hm, if_pos rfl]
  · simp only [memRead, get_put hm, if_neg hb]

theorem memRead_putBytes_inside {m : Memory} (hm : m.wf) {start : Nat} {data : List Byte}
    (hfits : start + data.length ≤ Config.memSize) {k : Nat} (hk : k < data.length) :
    memRead (m.putBytes start data) (start + k) = .ok data[k] := by
  rw [memRead_ok (by omega), get_putBytes hm data hfits, dif_pos (by omega)]
  simp only [Nat.add_sub_cancel_left]

theorem memRead_putBytes_outside {m : Memory} (hm : m.wf) {start : Nat} {data : List Byte}
    (hfits : start + data.length ≤ Config.memSize) {b : Nat} (hb : b < start ∨ start + data.length ≤ b) :
    memRead (m.putBytes start data) b = memRead m b := by
  have hget : (m.putBytes start data).get b = m.get b := by
    rw [get_putBytes hm data hfits, dif_neg (by omega)]
  simp only [memRead, hget]

/-- Settles O5: the host's `readByte` is the read port's access, on both sides of 4096. -/
theorem readPortChecksTheAddress : Obligations.ReadPortChecksTheAddress := by
  unfold Obligations.ReadPortChecksTheAddress
  refine fun s a => ⟨fun h => ⟨memRead_error h, ?_⟩, fun h => ⟨memRead_ok h, transact_readByte_of_lt h⟩⟩
  rw [transact_readByte_of_le h]
  exact ⟨rfl, sameButHistory_report s _⟩

/-- Settles O6: the written cell by read after write in canonical memory, the failure by its record. -/
theorem writeByteWritesOneCell : Obligations.WriteByteWritesOneCell := by
  unfold Obligations.WriteByteWritesOneCell
  refine fun s a v hm => ⟨fun h => ?inRange, fun h => ?outOfRange⟩
  case inRange => exact ⟨_, transact_writeByte_of_lt h, rfl, rfl, rfl, rfl, memRead_put hm h v⟩
  case outOfRange =>
    rw [transact_writeByte_of_le h]
    exact ⟨rfl, sameButHistory_report s _⟩

/-- Settles O7: the bounds are checked before the first byte is written, so that a load which fails writes none. -/
theorem loadBytesIsAllOrNothing : Obligations.LoadBytesIsAllOrNothing := by
  unfold Obligations.LoadBytesIsAllOrNothing
  refine fun s start data hm => ⟨fun h => ?fits, fun h => ?overflows⟩
  case fits =>
    exact ⟨_, transact_loadBytes_of_le h, rfl, rfl, rfl, rfl,
      fun _ hk => memRead_putBytes_inside hm h hk, fun _ hb => memRead_putBytes_outside hm h hb⟩
  case overflows =>
    rw [transact_loadBytes_of_lt h]
    exact ⟨rfl, sameButHistory_report s _⟩

end Sys2Proof.Machine
end

section
/-! ### The fields of an opcode as numbers, and the opcode map they key (R72, R77, R78) -/

namespace Sys2Proof

/-- A bit field of an opcode, said by division and remainder. -/
theorem extract_toNat (op : Word) (start len : Nat) :
    (op.extractLsb' start len).toNat = op.toNat / 2 ^ start % 2 ^ len := by
  rw [BitVec.extractLsb'_toNat, Nat.shiftRight_eq_div_pow]

/-- The class is the one field whose remainder does nothing: an opcode is below 16 * 4096. -/
theorem opClass_toNat (op : Word) : (opClass op).toNat = op.toNat / 4096 := by
  have hlt : op.toNat / 4096 < 16 := Nat.div_lt_of_lt_mul op.isLt
  rw [opClass, extract_toNat]
  exact Nat.mod_eq_of_lt hlt

theorem opX_val (op : Word) : (opX op).val = op.toNat / 256 % 16 := extract_toNat op 8 4

theorem opY_val (op : Word) : (opY op).val = op.toNat / 16 % 16 := extract_toNat op 4 4

theorem opN_toNat (op : Word) : (opN op).toNat = op.toNat % 16 := by
  simp only [opN, extract_toNat, Nat.reducePow, Nat.div_one]

theorem opNN_toNat (op : Word) : (opNN op).toNat = op.toNat % 256 := by
  simp only [opNN, extract_toNat, Nat.reducePow, Nat.div_one]

theorem opNNN_toNat (op : Word) : (opNNN op).toNat = op.toNat % 4096 := by
  simp only [opNNN, extract_toNat, Nat.reducePow, Nat.div_one]

/-! The dispatch keys, compared as numbers. -/

theorem opClass_eq_iff {op : Word} {c : BitVec 4} : opClass op = c ↔ op.toNat / 4096 = c.toNat := by
  rw [← BitVec.toNat_inj, opClass_toNat]

theorem opN_eq_iff {op : Word} {n : BitVec 4} : opN op = n ↔ op.toNat % 16 = n.toNat := by
  rw [← BitVec.toNat_inj, opN_toNat]

/-! The decoder, one equation per entry of each level of the map. -/

theorem decode_of_class_six {op : Word} (h : opClass op = 6#4) : decode op = .ldImm (opX op) (opNN op) := by
  simp only [decode, h]

theorem decode_of_class_seven {op : Word} (h : opClass op = 7#4) : decode op = .addImm (opX op) (opNN op) := by
  simp only [decode, h]

theorem decode_of_class_eight {op : Word} (h : opClass op = 8#4) : decode op = decodeClass8 op := by
  simp only [decode, h]

theorem decode_of_other_class {op : Word} (h6 : opClass op ≠ 6#4) (h7 : opClass op ≠ 7#4)
    (h8 : opClass op ≠ 8#4) : decode op = .unimpl op := by
  unfold decode
  split
  next h => exact absurd h h6
  next h => exact absurd h h7
  next h => exact absurd h h8
  next => rfl

theorem decodeClass8_of_n_four {op : Word} (h : opN op = 4#4) : decodeClass8 op = .addReg (opX op) (opY op) := by
  simp only [decodeClass8, h]

theorem decodeClass8_of_other_n {op : Word} (h : opN op ≠ 4#4) : decodeClass8 op = .unimpl op := by
  unfold decodeClass8
  split
  next h4 => exact absurd h4 h
  next => rfl

/-- Settles O14, one field at a time. -/
theorem fieldsAreBitSlices : Obligations.FieldsAreBitSlices := by
  unfold Obligations.FieldsAreBitSlices
  exact fun op => ⟨opClass_toNat op, opX_val op, opY_val op, opN_toNat op, opNN_toNat op, opNNN_toNat op⟩

/-- Settles O15: the decoder's equations, with their keys and operands read as numbers. -/
theorem decodeFollowsTheOpcodeMap : Obligations.DecodeFollowsTheOpcodeMap := by
  unfold Obligations.DecodeFollowsTheOpcodeMap
  intro op
  refine ⟨?ldImm, ?addImm, ?addReg, ?otherN, ?otherClass⟩
  case ldImm =>
    exact fun hc => ⟨_, _, decode_of_class_six (opClass_eq_iff.2 hc), opX_val op, opNN_toNat op⟩
  case addImm =>
    exact fun hc => ⟨_, _, decode_of_class_seven (opClass_eq_iff.2 hc), opX_val op, opNN_toNat op⟩
  case addReg =>
    intro hc hn
    have hd : decode op = .addReg (opX op) (opY op) :=
      (decode_of_class_eight (opClass_eq_iff.2 hc)).trans (decodeClass8_of_n_four (opN_eq_iff.2 hn))
    exact ⟨_, _, hd, opX_val op, opY_val op⟩
  case otherN =>
    intro hc hn
    rw [decode_of_class_eight (opClass_eq_iff.2 hc)]
    exact decodeClass8_of_other_n (mt opN_eq_iff.1 hn)
  case otherClass =>
    exact fun h6 h7 h8 =>
      decode_of_other_class (mt opClass_eq_iff.1 h6) (mt opClass_eq_iff.1 h7) (mt opClass_eq_iff.1 h8)

end Sys2Proof
end

section
/-! ### The fetch of two bytes that the read port gives (R71, R93) -/

namespace Sys2Proof.Machine

/-- Big-endian, as a number: the byte at the lower address counts 256 times. -/
theorem assemble_toNat (hi lo : Byte) : (assemble hi lo).toNat = 256 * hi.toNat + lo.toNat := by
  rw [assemble, BitVec.toNat_append, ← Nat.shiftLeft_add_eq_or_of_lt lo.isLt, Nat.shiftLeft_eq, Nat.mul_comm]

theorem fetch_of_reads {s : State} {hi lo : Byte} (hw : s.isWritten .pc = true)
    (hhi : memRead s.mem s.pc.toNat = .ok hi) (hlo : memRead s.mem (s.pc.toNat + 1) = .ok lo) :
    fetch s = .ok (assemble hi lo) := by
  simp only [fetch, checked_of_written hw, hhi, hlo]

/-- Settles O18: the opcode is the assembled word, whose value and whose two halves the laws of `assemble` give. -/
theorem fetchAssemblesBigEndian : Obligations.FetchAssemblesBigEndian := by
  unfold Obligations.FetchAssemblesBigEndian
  exact fun _ hi lo hw hhi hlo =>
    ⟨_, fetch_of_reads hw hhi hlo, assemble_toNat hi lo, opHi_assemble hi lo, opLo_assemble hi lo⟩

end Sys2Proof.Machine
end

section
/-! ### The rows of the opcode table that name no handler (R79, R97) -/

namespace Sys2Proof

theorem opClass_and (a b : Word) : opClass (a &&& b) = opClass a &&& opClass b := BitVec.extractLsb'_and

theorem opN_and (a b : Word) : opN (a &&& b) = opN a &&& opN b := BitVec.extractLsb'_and

/-- A mask that holds the whole class makes a row fix the class of the opcodes it covers. -/
theorem opClass_of_covers {r : OpcodeRow} {op : Word} (hmask : opClass r.mask = BitVec.allOnes 4)
    (h : r.covers op = true) : opClass op = opClass r.pattern := by
  rw [← eq_of_beq h, opClass_and, hmask, BitVec.and_allOnes]

/-- A mask that holds the whole of `N` makes a row fix the second-level key of the opcodes it covers. -/
theorem opN_of_covers {r : OpcodeRow} {op : Word} (hmask : opN r.mask = BitVec.allOnes 4)
    (h : r.covers op = true) : opN op = opN r.pattern := by
  rw [← eq_of_beq h, opN_and, hmask, BitVec.and_allOnes]

/-- The two kinds of UNIMPL rows, by the keys their masks and patterns hold (R77, R78). -/
theorem unimpl_row_cases : ∀ r ∈ opcodeTable, r.mnemonic = .unimpl →
    opClass r.mask = BitVec.allOnes 4 ∧
      (opClass r.pattern ≠ 6#4 ∧ opClass r.pattern ≠ 7#4 ∧ opClass r.pattern ≠ 8#4 ∨
        opClass r.pattern = 8#4 ∧ opN r.mask = BitVec.allOnes 4 ∧ opN r.pattern ≠ 4#4) := by
  decide

theorem decode_of_unimpl_row {r : OpcodeRow} {op : Word} (hr : r ∈ opcodeTable) (hm : r.mnemonic = .unimpl)
    (h : r.covers op = true) : decode op = .unimpl op := by
  obtain ⟨hmask, hkeys⟩ := unimpl_row_cases r hr hm
  have hclass : opClass op = opClass r.pattern := opClass_of_covers hmask h
  rw [← hclass] at hkeys
  obtain ⟨h6, h7, h8⟩ | ⟨h8, hmaskN, hN⟩ := hkeys
  · exact decode_of_other_class h6 h7 h8
  · rw [decode_of_class_eight h8]
    rw [← opN_of_covers hmaskN h] at hN
    exact decodeClass8_of_other_n hN

end Sys2Proof
end

section
/-! ### The step that fetches an opcode without a handler (R92, R97) -/

namespace Sys2Proof.Machine

/-- A report writes no register, so its frame is the empty one. -/
theorem frame_report (s : State) (st : Status) : Frame (fun _ => False) s (s.report st) :=
  ⟨fun j _ => ⟨report_readV s st j, report_isWritten s st (.v j)⟩, fun _ h => h.elim, report_i s st,
    report_isWritten s st .i, report_pc s st, report_isWritten s st .pc, fun _ => by rw [report_mem]⟩

theorem step_of_fetch_unimpl {s : State} {op : Word} (hf : fetch s = .ok op) (hd : decode op = .unimpl op) :
    step s = .next (s.advance.report (.unimplementedOpcode op)) := by
  rw [step_of_fetch hf, hd]
  exact exec_unimpl op s.advance

theorem transact_step_of_fetch_unimpl {s : State} {op : Word} (hf : fetch s = .ok op)
    (hd : decode op = .unimpl op) :
    transact .step s = (s.advance.report (.unimplementedOpcode op), .status (.unimplementedOpcode op)) := by
  rw [transact_step_next (step_of_fetch_unimpl hf hd), statusOutput_of_history (report_history _ _)]

/-- A step whose fetch runs past the end of memory records and returns the address (R92, D4). -/
theorem transact_step_out_of_range {s : State} (hw : s.isWritten .pc = true)
    (h : Config.memSize ≤ s.pc.toNat + 1) :
    ∃ a, transact .step s = (s.report (.addressOutOfRange a), .status (.addressOutOfRange a)) :=
  ⟨_, (transact_step_fault (step_of_fetch_error (fetch_out_of_range hw h))).trans (raise_of_status rfl s)⟩

/-- Settles O33: `exec` only reports, the rows by their dispatch keys, the step by its advance and report, and the
corner by the next fetch from 0x1000. -/
theorem unimplChangesOnlyPcAndReports : Obligations.UnimplChangesOnlyPcAndReports := by
  unfold Obligations.UnimplChangesOnlyPcAndReports
  refine ⟨?execOnlyReports, ?tableRows, ?fetched⟩
  case execOnlyReports => exact fun op s => ⟨_, exec_unimpl op s, frame_report s _⟩
  case tableRows => exact fun _ _ hr hm hc => decode_of_unimpl_row hr hm hc
  case fetched =>
    intro s op hf hd
    obtain ⟨hw, -⟩ := fetch_eq_ok_iff.1 hf
    have hstep := step_of_fetch_unimpl hf hd
    refine ⟨_, hstep, transact_step_of_fetch_unimpl hf hd, step_next_pc_toNat hstep,
      frame_report s.advance _, fun hlast => ?_⟩
    have hpc : (s.advance.report (.unimplementedOpcode op)).pc = 0x1000#16 := by
      rw [report_pc, advance_pc, hlast]
      rfl
    have hw' : (s.advance.report (.unimplementedOpcode op)).isWritten .pc = true := by
      rw [report_isWritten, advance_isWritten, hw]
    obtain ⟨a, ha⟩ := transact_step_out_of_range hw' (by rw [hpc]; decide)
    exact ⟨hpc, a, congrArg Prod.snd ha⟩

end Sys2Proof.Machine
end

section
/-! ### The immediate add: the wrapped sum in its destination, and nothing else written (R111, R113) -/

namespace Sys2Proof.Machine

/-- The mask of the class-wide rows keeps the dispatch key whole (R77, R79). -/
theorem opClass_of_masked {op p : Word} (h : op &&& 0xF000#16 = p) : opClass op = opClass p := by
  have hmask : opClass 0xF000#16 = BitVec.allOnes 4 := by decide
  rw [← h, opClass_and, hmask, BitVec.and_allOnes]

/-- Nine bits hold the sum of two bytes exactly (R120). -/
theorem sum9_toNat (a b : Byte) : (sum9 a b).toNat = a.toNat + b.toNat := by
  have ha : a.toNat < 256 := a.isLt
  have hb : b.toNat < 256 := b.isLt
  simp only [sum9, BitVec.toNat_add, BitVec.toNat_setWidth]
  omega

theorem add8_sum_toNat (a b : Byte) : (add8 a b).1.toNat = (a.toNat + b.toNat) % 256 := by
  rw [add8, BitVec.extractLsb'_toNat, sum9_toNat, Nat.shiftRight_zero]

theorem readV_of_frame {writes : RegIdx → Prop} {s t : State} {j : RegIdx} (h : Frame writes s t)
    (hj : ¬ writes j) : t.readV j = s.readV j := by
  obtain ⟨hother, -⟩ := h
  exact (hother j hj).1

/-- The frame of an instruction that writes one register and reports. -/
theorem frame_writeV_report (s : State) (x : RegIdx) (b : Byte) (st : Status) :
    Frame (fun j => j = x) s ((s.writeV x b).report st) := by
  refine ⟨fun j hj => ⟨?value, ?mark⟩, fun j hj => ?destination, rfl, ?markI, rfl, ?markPc, fun _ => rfl⟩
  case value => rw [report_readV, readV_writeV_other s b hj]
  case mark => simp [hj]
  case destination => simp [hj]
  case markI => simp
  case markPc => simp

theorem readV_afterExec_addImm (s : State) (x : RegIdx) (nn : Byte) :
    (s.afterExec (.addImm x nn)).readV x = (add8 (s.readV x) nn).1 := by
  rw [State.afterExec, report_readV, readV_writeV_same]

theorem frame_afterExec_addImm (s : State) (x : RegIdx) (nn : Byte) :
    Frame (fun j => j = x) s (s.afterExec (.addImm x nn)) :=
  frame_writeV_report s x _ _

/-- The state ADD_IMM completes in, as R111 and R113 describe it; `VF` keeps its value because it is in the frame. -/
theorem addImm_wraps_and_keeps_vf (s : State) (x : RegIdx) (nn : Byte) :
    ((s.afterExec (.addImm x nn)).readV x).toNat = ((s.readV x).toNat + nn.toNat) % 256 ∧
      (x ≠ 15 → (s.afterExec (.addImm x nn)).readV 15 = s.readV 15) ∧
      Frame (fun j => j = x) s (s.afterExec (.addImm x nn)) := by
  have hframe := frame_afterExec_addImm s x nn
  refine ⟨?_, fun hx => readV_of_frame hframe hx.symm, hframe⟩
  rw [readV_afterExec_addImm, add8_sum_toNat]

theorem step_of_fetch_addImm {s : State} {op : Word} (hf : fetch s = .ok op) (hop : op &&& 0xF000#16 = 0x7000#16)
    (hw : s.isWritten (.v (opX op)) = true) :
    step s = .next (s.advance.afterExec (.addImm (opX op) (opNN op))) := by
  have hd : decode op = .addImm (opX op) (opNN op) := decode_of_class_seven (opClass_of_masked hop)
  have hops : s.OperandsWritten (decode op) := by
    rw [hd]
    exact operandsWritten_addImm.2 hw
  rw [step_completes_of_fetch hf hops, hd]

/-- Settles O29: one description of the completed state, for `exec` where the operand is set and, on the advanced state,
for the step that fetched the opcode. -/
theorem addImmWrapsAndWritesNoCarry : Obligations.AddImmWrapsAndWritesNoCarry := by
  unfold Obligations.AddImmWrapsAndWritesNoCarry
  refine ⟨?executed, ?fetched⟩
  case executed =>
    exact fun x nn s hw =>
      ⟨_, exec_of_operandsWritten (operandsWritten_addImm.2 hw), addImm_wraps_and_keeps_vf s x nn⟩
  case fetched =>
    intro s op hf hop
    refine ⟨opX op, opX_val op, fun hw => ⟨_, step_of_fetch_addImm hf hop hw, ?_⟩⟩
    rw [← opNN_toNat]
    exact addImm_wraps_and_keeps_vf s.advance (opX op) (opNN op)

end Sys2Proof.Machine
end

section
/-! ### Class 0x8 without a handler: the step advances, reports and writes nothing else (R125) -/

namespace Sys2Proof.Machine

/-- The part of the opcode map that R125 speaks of. -/
theorem decode_of_class_eight_of_other_n {op : Word} (hc : op.toNat / 4096 = 8) (hn : op.toNat % 16 ≠ 4) :
    decode op = .unimpl op := by
  obtain ⟨-, -, -, hother, -⟩ := decodeFollowsTheOpcodeMap op
  exact hother hc hn

/-- Settles O34: the dispatch keys decode to `unimpl`, whose step is an advance and a report; neither writes a register,
`I`, a mark or memory. -/
theorem otherClass8OpcodesAreUnimplemented : Obligations.OtherClass8OpcodesAreUnimplemented := by
  unfold Obligations.OtherClass8OpcodesAreUnimplemented
  intro s op hf hc hn
  have hd : decode op = .unimpl op := decode_of_class_eight_of_other_n hc hn
  refine ⟨_, transact_step_of_fetch_unimpl hf hd, ?pc, fun j => ?registers, ?index, ?marks, fun a => ?memory⟩
  case pc => exact step_next_pc_toNat (step_of_fetch_unimpl hf hd)
  case registers => rw [report_readV, advance_readV]
  case index => rw [report_i, advance_i]
  case marks => rw [report_written, advance_written]
  case memory => rw [report_mem, advance_mem]

end Sys2Proof.Machine
end

section
/-! ### Which transactions return a status, and what each leaves of the state (R42, R100, R140) -/

namespace Sys2Proof.Machine

/-- The status an instruction reports when it completes; `afterExec_history` ties it to `afterExec`. -/
def reportedStatus : Instr → Status
  | .ldImm x nn => .executed (encode (.ldImm x nn)) (.ldImm x nn)
  | .addImm x nn => .executed (encode (.addImm x nn)) (.addImm x nn)
  | .addReg x y => .executed (encode (.addReg x y)) (.addReg x y)
  | .unimpl op => .unimplementedOpcode op

@[simp] theorem afterExec_history (s : State) (i : Instr) :
    (s.afterExec i).history = reportedStatus i :: s.history := by
  cases i <;> rfl

theorem eq_unimpl_of_reportedStatus {i : Instr} {op : Word} (h : reportedStatus i = .unimplementedOpcode op) :
    i = .unimpl op := by
  cases i with
  | ldImm | addImm | addReg => cases h
  | unimpl op' =>
    cases h
    rfl

/-- A status tells whether the operation was ended by a condition or an instruction completed. -/
theorem fault_status_ne_reportedStatus (f : Fault) (i : Instr) : f.status ≠ some (reportedStatus i) := by
  intro h
  cases f with
  | addressOutOfRange | loadOverflow => cases i <;> cases h
  | unwrittenRegister => cases h

theorem fault_status_of_raise {s : State} {f : Fault} {st : Status} (h : (s.raise f).2 = .status st) :
    f.status = some st := by
  cases f with
  | addressOutOfRange | loadOverflow =>
    cases h
    rfl
  | unwrittenRegister => cases h

theorem exists_fault_of_eq_raise {p : State × Response} {s : State} {f : Fault} {st : Status} (hp : p = s.raise f)
    (h : p.2 = .status st) : ∃ g : Fault, g.status = some st ∧ p = s.raise g :=
  ⟨f, fault_status_of_raise (hp ▸ h), hp⟩

theorem hostRead_ne_status {α : Type} {s : State} {r : Reg} {a : α} {k : α → Response} {st : Status}
    (hk : k a ≠ .status st) : (s.hostRead r a k).2 ≠ .status st := by
  rw [hostRead_eq]
  split
  next => exact hk
  next => simp

/-- A step returns a status by a fault that is a condition of the block, or by completing. -/
theorem transact_step_status_cases {s : State} {st : Status} (h : (transact .step s).2 = .status st) :
    (∃ f : Fault, f.status = some st ∧ transact .step s = s.raise f) ∨
      ∃ op, fetch s = .ok op ∧ (transact .step s).1 = s.advance.afterExec (decode op) ∧
        st = reportedStatus (decode op) := by
  cases hs : step s with
  | next t =>
    obtain ⟨op, hf, he⟩ := step_next_iff.1 hs
    obtain ⟨-, rfl⟩ := exec_next_iff.1 he
    rw [transact_step_next hs] at h ⊢
    rw [statusOutput_of_history (afterExec_history _ _)] at h
    cases h
    exact .inr ⟨op, hf, rfl, rfl⟩
  | fault f => exact .inl (exists_fault_of_eq_raise (transact_step_fault hs) h)
  | refused r => simp [transact, hs] at h

/-- Everything a transaction that returns a status can have done: a condition ended it, or it is a step that completed.
Of the host's other requests only the memory accesses return a status, each above its bound. -/
theorem transact_status_cases {q : Request} {s : State} {st : Status} (h : (transact q s).2 = .status st) :
    (∃ f : Fault, f.status = some st ∧ transact q s = s.raise f) ∨
      q = .step ∧ ∃ op, fetch s = .ok op ∧ (transact q s).1 = s.advance.afterExec (decode op) ∧
        st = reportedStatus (decode op) := by
  cases q with
  | step => exact (transact_step_status_cases h).imp_right fun completed => ⟨rfl, completed⟩
  | initializeCpu | writeV | writeI | writePC => cases h
  | readV | readI | readPC => exact absurd h (hostRead_ne_status (by simp))
  | readByte a =>
    obtain hlt | hle := Nat.lt_or_ge a Config.memSize
    · rw [transact_readByte_of_lt hlt] at h
      cases h
    · exact .inl (exists_fault_of_eq_raise (f := .addressOutOfRange a) (transact_readByte_of_le hle) h)
  | writeByte a v =>
    obtain hlt | hle := Nat.lt_or_ge a Config.memSize
    · rw [transact_writeByte_of_lt hlt] at h
      cases h
    · exact .inl (exists_fault_of_eq_raise (f := .addressOutOfRange a) (transact_writeByte_of_le hle) h)
  | loadBytes start data =>
    obtain hlt | hle := Nat.lt_or_ge Config.memSize (start + data.length)
    · exact .inl (exists_fault_of_eq_raise (f := .loadOverflow start data.length) (transact_loadBytes_of_lt hlt) h)
    · rw [transact_loadBytes_of_le hle] at h
      cases h

theorem sameButHistory_raise (s : State) (f : Fault) : SameButHistory s (s.raise f).1 :=
  ⟨raise_v s f, raise_i s f, raise_pc s f, raise_mem s f, raise_written s f⟩

/-- A status that reports a fault comes from no completed instruction, so that the transaction ended with the fault. -/
theorem sameButHistory_of_fault_status {q : Request} {s : State} {f : Fault} {st : Status} (hf : f.status = some st)
    (h : (transact q s).2 = .status st) : SameButHistory s (transact q s).1 := by
  obtain ⟨g, -, hq⟩ | ⟨-, op, -, -, rfl⟩ := transact_status_cases h
  · rw [hq]
    exact sameButHistory_raise s g
  · exact absurd hf (fault_status_ne_reportedStatus f _)

/-- UnimplementedOpcode is reported by no fault, so that the transaction is a step that advanced and reported. -/
theorem transact_of_unimplementedOpcode {q : Request} {s : State} {op : Word}
    (h : (transact q s).2 = .status (.unimplementedOpcode op)) :
    (transact q s).1 = s.advance.report (.unimplementedOpcode op) ∧ s.advance.pc.toNat = s.pc.toNat + 2 := by
  obtain ⟨f, hf, -⟩ | ⟨-, op', hfetch, hq, hst⟩ := transact_status_cases h
  · exact absurd hf (fault_status_ne_reportedStatus f (.unimpl op))
  · have hd : decode op' = .unimpl op := eq_unimpl_of_reportedStatus hst.symm
    rw [hd] at hq
    exact ⟨hq, advance_pc_toNat_of_fetch hfetch⟩

/-- Settles O22: by the status, a condition that ended the operation, which changes the record only, or a step that
advanced and reported. -/
theorem conditionsArePrecise : Obligations.ConditionsArePrecise := by
  unfold Obligations.ConditionsArePrecise
  refine fun q s => ⟨fun a => ?outOfRange, fun start n => ?overflow, fun op h => ?unimplemented⟩
  case outOfRange => exact sameButHistory_of_fault_status (f := .addressOutOfRange a) rfl
  case overflow => exact sameButHistory_of_fault_status (f := .loadOverflow start n) rfl
  case unimplemented =>
    obtain ⟨hq, hpc⟩ := transact_of_unimplementedOpcode h
    rw [hq]
    exact ⟨report_v _ _, report_i _ _, report_mem _ _, report_written _ _, hpc⟩

end Sys2Proof.Machine
end

section
/-! ### Encoding and decoding, each the other's inverse (R74, R80, R83) -/

namespace Sys2Proof

/-- Everything the decoder can answer, with the dispatch keys it answers for. -/
theorem decode_cases (op : Word) :
    (opClass op = 6#4 ∧ decode op = .ldImm (opX op) (opNN op)) ∨
      (opClass op = 7#4 ∧ decode op = .addImm (opX op) (opNN op)) ∨
      (opClass op = 8#4 ∧ opN op = 4#4 ∧ decode op = .addReg (opX op) (opY op)) ∨
      (opClass op ≠ 6#4 ∧ opClass op ≠ 7#4 ∧ ¬ (opClass op = 8#4 ∧ opN op = 4#4) ∧ decode op = .unimpl op) := by
  by_cases h6 : opClass op = 6#4
  · exact .inl ⟨h6, decode_of_class_six h6⟩
  by_cases h7 : opClass op = 7#4
  · exact .inr (.inl ⟨h7, decode_of_class_seven h7⟩)
  by_cases h8 : opClass op = 8#4
  · have hd := decode_of_class_eight h8
    by_cases hn : opN op = 4#4
    · exact .inr (.inr (.inl ⟨h8, hn, hd.trans (decodeClass8_of_n_four hn)⟩))
    · exact .inr (.inr (.inr ⟨h6, h7, fun h => hn h.2, hd.trans (decodeClass8_of_other_n hn)⟩))
  · exact .inr (.inr (.inr ⟨h6, h7, fun h => h8 h.1, decode_of_other_class h6 h7 h8⟩))

/-! An opcode is determined by its fields, cut as `class X NN` or as `class X Y N`. -/

theorem eq_of_fields_xnn {a b : Word} (hc : opClass a = opClass b) (hx : opX a = opX b)
    (hnn : opNN a = opNN b) : a = b := by
  apply BitVec.eq_of_toNat_eq
  have hc' := congrArg BitVec.toNat hc
  have hx' := congrArg Fin.val hx
  have hnn' := congrArg BitVec.toNat hnn
  rw [opClass_toNat, opClass_toNat] at hc'
  rw [opX_val, opX_val] at hx'
  rw [opNN_toNat, opNN_toNat] at hnn'
  omega

theorem eq_of_fields_xyn {a b : Word} (hc : opClass a = opClass b) (hx : opX a = opX b) (hy : opY a = opY b)
    (hn : opN a = opN b) : a = b := by
  refine eq_of_fields_xnn hc hx (BitVec.eq_of_toNat_eq ?_)
  have hy' := congrArg Fin.val hy
  have hn' := congrArg BitVec.toNat hn
  rw [opY_val, opY_val] at hy'
  rw [opN_toNat, opN_toNat] at hn'
  rw [opNN_toNat, opNN_toNat]
  omega

/-! The two masks of the opcode table keep the dispatch keys and clear the rest. -/

theorem opX_of_mask_zero {a mask : Word} (h : mask.extractLsb' 8 4 = 0#4) : opX (a &&& mask) = 0 := by
  rw [opX, BitVec.extractLsb'_and, h, BitVec.and_zero]
  rfl

theorem opY_of_mask_zero {a mask : Word} (h : mask.extractLsb' 4 4 = 0#4) : opY (a &&& mask) = 0 := by
  rw [opY, BitVec.extractLsb'_and, h, BitVec.and_zero]
  rfl

/-- The word that a row of the table has for its keys: `class` and `N`, zeros between. -/
def keyWord (c n : BitVec 4) : Word := c ++ BitVec.ofFin (w := 4) 0 ++ BitVec.ofFin (w := 4) 0 ++ n

theorem and_classMask (op : Word) : op &&& 0xF000#16 = keyWord (opClass op) 0#4 := by
  obtain ⟨hc, hx, hy, hn⟩ := Laws.EncodeFields.fields_xyn (opClass op) 0 0 0#4
  refine eq_of_fields_xyn (.trans ?_ hc.symm) (.trans ?_ hx.symm) (.trans ?_ hy.symm) (.trans ?_ hn.symm)
  · rw [opClass_and, show opClass 0xF000#16 = BitVec.allOnes 4 by decide, BitVec.and_allOnes]
  · exact opX_of_mask_zero (by decide)
  · exact opY_of_mask_zero (by decide)
  · rw [opN_and, show opN 0xF000#16 = 0#4 by decide, BitVec.and_zero]

theorem and_classNMask (op : Word) : op &&& 0xF00F#16 = keyWord (opClass op) (opN op) := by
  obtain ⟨hc, hx, hy, hn⟩ := Laws.EncodeFields.fields_xyn (opClass op) 0 0 (opN op)
  refine eq_of_fields_xyn (.trans ?_ hc.symm) (.trans ?_ hx.symm) (.trans ?_ hy.symm) (.trans ?_ hn.symm)
  · rw [opClass_and, show opClass 0xF00F#16 = BitVec.allOnes 4 by decide, BitVec.and_allOnes]
  · exact opX_of_mask_zero (by decide)
  · exact opY_of_mask_zero (by decide)
  · rw [opN_and, show opN 0xF00F#16 = BitVec.allOnes 4 by decide, BitVec.and_allOnes]

theorem keyWord_inj {c c' n n' : BitVec 4} : keyWord c n = keyWord c' n' ↔ c = c' ∧ n = n' := by
  constructor
  · intro h
    obtain ⟨hc, -, -, hn⟩ := Laws.EncodeFields.fields_xyn c 0 0 n
    obtain ⟨hc', -, -, hn'⟩ := Laws.EncodeFields.fields_xyn c' 0 0 n'
    exact ⟨hc.symm.trans ((congrArg opClass h).trans hc'), hn.symm.trans ((congrArg opN h).trans hn')⟩
  · rintro ⟨rfl, rfl⟩
    rfl

/-! The patterns of the three implemented rows, by their keys. -/

theorem masked_eq_ldImm_iff {op : Word} : op &&& 0xF000#16 = 0x6000#16 ↔ opClass op = 6#4 := by
  rw [and_classMask, show 0x6000#16 = keyWord 6#4 0#4 by decide, keyWord_inj]
  simp

theorem masked_eq_addImm_iff {op : Word} : op &&& 0xF000#16 = 0x7000#16 ↔ opClass op = 7#4 := by
  rw [and_classMask, show 0x7000#16 = keyWord 7#4 0#4 by decide, keyWord_inj]
  simp

theorem masked_eq_addReg_iff {op : Word} : op &&& 0xF00F#16 = 0x8004#16 ↔ opClass op = 8#4 ∧ opN op = 4#4 := by
  rw [and_classNMask, show 0x8004#16 = keyWord 8#4 4#4 by decide, keyWord_inj]

theorem wellFormed_unimpl_iff {op : Word} :
    (Instr.unimpl op).wellFormed = true ↔
      opClass op ≠ 6#4 ∧ opClass op ≠ 7#4 ∧ ¬ (opClass op = 8#4 ∧ opN op = 4#4) := by
  rw [Ne, Ne, ← masked_eq_ldImm_iff, ← masked_eq_addImm_iff, ← masked_eq_addReg_iff]
  simp [Instr.wellFormed, isLdImmWord, isAddImmWord, isAddRegWord, and_assoc]

theorem decode_encode {i : Instr} (h : i.wellFormed = true) : decode (encode i) = i := by
  cases i with
  | ldImm x nn =>
    obtain ⟨hc, hx, hnn⟩ := Laws.EncodeFields.ldImm x nn
    rw [decode_of_class_six hc, hx, hnn]
  | addImm x nn =>
    obtain ⟨hc, hx, hnn⟩ := Laws.EncodeFields.addImm x nn
    rw [decode_of_class_seven hc, hx, hnn]
  | addReg x y =>
    obtain ⟨hc, hx, hy, hn⟩ := Laws.EncodeFields.addReg x y
    rw [decode_of_class_eight hc, decodeClass8_of_n_four hn, hx, hy]
  | unimpl op =>
    obtain ⟨h6, h7, h84⟩ := wellFormed_unimpl_iff.1 h
    obtain ⟨hc, -⟩ | ⟨hc, -⟩ | ⟨hc, hn, -⟩ | ⟨-, -, -, hd⟩ := decode_cases op
    · exact absurd hc h6
    · exact absurd hc h7
    · exact absurd ⟨hc, hn⟩ h84
    · exact hd

theorem encode_decode (op : Word) : encode (decode op) = op := by
  obtain ⟨hc, hd⟩ | ⟨hc, hd⟩ | ⟨hc, hn, hd⟩ | ⟨-, -, -, hd⟩ := decode_cases op
  · obtain ⟨hc', hx, hnn⟩ := Laws.EncodeFields.ldImm (opX op) (opNN op)
    rw [hd]
    exact eq_of_fields_xnn (hc'.trans hc.symm) hx hnn
  · obtain ⟨hc', hx, hnn⟩ := Laws.EncodeFields.addImm (opX op) (opNN op)
    rw [hd]
    exact eq_of_fields_xnn (hc'.trans hc.symm) hx hnn
  · obtain ⟨hc', hx, hy, hn'⟩ := Laws.EncodeFields.addReg (opX op) (opY op)
    rw [hd]
    exact eq_of_fields_xyn (hc'.trans hc.symm) hx hy (hn'.trans hn.symm)
  · rw [hd]
    rfl

theorem wellFormed_decode (op : Word) : (decode op).wellFormed = true := by
  obtain ⟨-, hd⟩ | ⟨-, hd⟩ | ⟨-, -, hd⟩ | ⟨h6, h7, h84, hd⟩ := decode_cases op
  · rw [hd]; rfl
  · rw [hd]; rfl
  · rw [hd]; rfl
  · rw [hd]
    exact wellFormed_unimpl_iff.2 ⟨h6, h7, h84⟩

/-- Settles O12: the decoder dispatches on the keys that the encoding strings fix, and reads the operands where they
put them; a well-formed `unimpl` carries an opcode with none of those keys. -/
theorem decodeOfEncodeIsTheInstruction : Obligations.DecodeOfEncodeIsTheInstruction := by
  unfold Obligations.DecodeOfEncodeIsTheInstruction
  exact fun _ h => decode_encode h

/-- Settles O13: the fields the decoder keeps determine the opcode. -/
theorem encodeOfDecodeIsTheOpcode : Obligations.EncodeOfDecodeIsTheOpcode := by
  unfold Obligations.EncodeOfDecodeIsTheOpcode
  exact fun op => ⟨encode_decode op, wellFormed_decode op⟩

/-- Settles O17: five closed words, by evaluation. -/
theorem sampleWordsDecode : Obligations.SampleWordsDecode := by
  unfold Obligations.SampleWordsDecode
  decide

end Sys2Proof
end

section
/-! ### The opcode table: each opcode's row, found by its dispatch keys (R79) -/

namespace Sys2Proof

/-- The mnemonic that the two-level map has for its keys (R77, R78). -/
def mnemonicOfKeys (c n : BitVec 4) : Mnemonic :=
  if c = 6#4 then .ldImm
  else if c = 7#4 then .addImm
  else if c = 8#4 ∧ n = 4#4 then .addReg
  else .unimpl

theorem decode_mnemonic (op : Word) : (decode op).mnemonic = mnemonicOfKeys (opClass op) (opN op) := by
  obtain ⟨hc, hd⟩ | ⟨hc, hd⟩ | ⟨hc, hn, hd⟩ | ⟨h6, h7, h84, hd⟩ := decode_cases op
  · rw [hd, hc]; rfl
  · rw [hd, hc]; rfl
  · rw [hd, hc, hn]; rfl
  · rw [hd, mnemonicOfKeys, if_neg h6, if_neg h7, if_neg h84]
    rfl

/-- The row for an opcode's keys: class 8 has a row for each `N`, the other classes have one each. -/
def rowOfKeys (c n : BitVec 4) : OpcodeRow :=
  if c = 8#4 then ⟨0xF00F#16, keyWord c n, mnemonicOfKeys c n⟩
  else ⟨0xF000#16, keyWord c 0#4, mnemonicOfKeys c n⟩

theorem rowOfKeys_mem_opcodeTable : ∀ c n, rowOfKeys c n ∈ opcodeTable := by decide

theorem rowOfKeys_covers (op : Word) : (rowOfKeys (opClass op) (opN op)).covers op = true := by
  unfold rowOfKeys
  split
  next => exact beq_iff_eq.2 (and_classNMask op)
  next => exact beq_iff_eq.2 (and_classMask op)

theorem rowOfKeys_mnemonic (c n : BitVec 4) : (rowOfKeys c n).mnemonic = mnemonicOfKeys c n := by
  unfold rowOfKeys
  split <;> rfl

/-- Outside class 8 the second key selects nothing. -/
theorem rowOfKeys_of_class_ne_eight {c n n' : BitVec 4} (h : c ≠ 8#4) : rowOfKeys c n = rowOfKeys c n' := by
  simp [rowOfKeys, mnemonicOfKeys, h]

/-- Each row of the table is the row of its pattern's keys, and its mask holds them whole. -/
theorem opcodeTable_rows : ∀ r ∈ opcodeTable,
    r = rowOfKeys (opClass r.pattern) (opN r.pattern) ∧ opClass r.mask = BitVec.allOnes 4 ∧
      (opClass r.pattern = 8#4 → opN r.mask = BitVec.allOnes 4) := by
  decide

theorem eq_rowOfKeys_of_covers {r : OpcodeRow} {op : Word} (hr : r ∈ opcodeTable) (h : r.covers op = true) :
    r = rowOfKeys (opClass op) (opN op) := by
  obtain ⟨hrow, hmask, hmaskN⟩ := opcodeTable_rows r hr
  have hc : opClass op = opClass r.pattern := opClass_of_covers hmask h
  by_cases h8 : opClass r.pattern = 8#4
  · rw [hc, opN_of_covers (hmaskN h8) h]
    exact hrow
  · rw [hc, rowOfKeys_of_class_ne_eight h8]
    exact hrow

/-- Settles O16: the row of an opcode's keys covers it, and any row that covers it has these keys. -/
theorem opcodeTableCoversEachOpcodeOnce : Obligations.OpcodeTableCoversEachOpcodeOnce := by
  unfold Obligations.OpcodeTableCoversEachOpcodeOnce
  refine ⟨rfl, fun op => ⟨_, rowOfKeys_mem_opcodeTable _ _, rowOfKeys_covers op, ?_, fun r hr hc => ?_⟩⟩
  · rw [rowOfKeys_mnemonic, decode_mnemonic]
  · exact eq_rowOfKeys_of_covers hr hc

end Sys2Proof
end

section
/-! ### What an instruction, a step and a transaction can do, failures among it, said once (R92, R96, R140, R158) -/

namespace Sys2Proof.Machine

/-! The state an instruction completes in: `I` and memory as before (R27, R51), and no mark cleared (R158). -/

@[simp] theorem afterExec_i (s : State) (i : Instr) : (s.afterExec i).i = s.i := by
  cases i <;> rfl

@[simp] theorem afterExec_mem (s : State) (i : Instr) : (s.afterExec i).mem = s.mem := by
  cases i <;> rfl

theorem afterExec_isWritten {s : State} {r : Reg} (h : s.isWritten r = true) (i : Instr) :
    (s.afterExec i).isWritten r = true := by
  cases i <;> simp [State.afterExec, h]

theorem operandsWritten_advance {s : State} {i : Instr} : s.advance.OperandsWritten i ↔ s.OperandsWritten i := by
  simp [State.OperandsWritten]

theorem operandsWritten_of_allWritten {s : State} (h : s.AllWritten) (i : Instr) : s.OperandsWritten i :=
  fun x _ => written_all_iff.1 h (.v x)

theorem exec_of_not_operandsWritten {i : Instr} {s : State} (h : ¬ s.OperandsWritten i) :
    ∃ x ∈ sources i, s.isWritten (.v x) = false ∧ exec i s = .fault (.unwrittenRegister (.v x)) := by
  cases i with
  | ldImm x nn => exact absurd (operandsWritten_ldImm s x nn) h
  | addImm x nn =>
    have hx : ¬ s.isWritten (.v x) = true := fun hx => h (operandsWritten_addImm.2 hx)
    exact ⟨x, by simp [sources], by simpa using hx, by rw [exec_addImm, if_neg hx]⟩
  | addReg x y =>
    by_cases hx : s.isWritten (.v x) = true
    · have hy : ¬ s.isWritten (.v y) = true := fun hy => h (operandsWritten_addReg.2 ⟨hx, hy⟩)
      exact ⟨y, by simp [sources], by simpa using hy, by rw [exec_addReg, if_pos hx, if_neg hy]⟩
    · exact ⟨x, by simp [sources], by simpa using hx, by rw [exec_addReg, if_neg hx]⟩
  | unimpl op => exact absurd (operandsWritten_unimpl s op) h

/-- What a fault says of the state it is raised at: the access was out of bounds, or the register is unwritten.
`step_cases` and `transact_cases` tie it to the model. -/
def Fault.RaisedAt (s : State) : Fault → Prop
  | .addressOutOfRange addr => Config.memSize ≤ addr
  | .loadOverflow start len => Config.memSize < start + len
  | .unwrittenRegister r => s.isWritten r = false

theorem fetch_of_canFetch {s : State} (h : s.CanFetch) : ∃ op, fetch s = .ok op :=
  ⟨_, fetch_eq_ok_iff.2 ⟨h.1, h.2, rfl⟩⟩

/-- The first address outside memory that a fetch at `pc` reads (D4). -/
def firstOutside (pc : Word) : Nat := if Config.memSize ≤ pc.toNat then pc.toNat else pc.toNat + 1

theorem memSize_le_firstOutside {pc : Word} (h : Config.memSize ≤ pc.toNat + 1) :
    Config.memSize ≤ firstOutside pc := by
  unfold firstOutside
  split
  next hle => exact hle
  next => exact h

/-- A fetch fails by an unwritten `PC`, or by the first address outside memory. -/
theorem fetch_error_cases {s : State} {f : Fault} (h : fetch s = .error f) :
    (s.isWritten .pc = false ∧ f = .unwrittenRegister .pc) ∨
      (Config.memSize ≤ s.pc.toNat + 1 ∧ f = .addressOutOfRange (firstOutside s.pc)) := by
  cases hw : s.isWritten .pc with
  | false =>
    rw [fetch_unwritten hw] at h
    exact .inl ⟨rfl, (Except.error.inj h).symm⟩
  | true =>
    obtain hin | hout := Nat.lt_or_ge (s.pc.toNat + 1) Config.memSize
    · obtain ⟨op, hop⟩ := fetch_of_canFetch ⟨hw, hin⟩
      rw [hop] at h
      cases h
    · rw [fetch_out_of_range hw hout] at h
      exact .inr ⟨hout, (Except.error.inj h).symm⟩

theorem fetch_error_raisedAt {s : State} {f : Fault} (h : fetch s = .error f) : f.RaisedAt s := by
  obtain ⟨hw, rfl⟩ | ⟨hout, rfl⟩ := fetch_error_cases h
  · exact hw
  · exact memSize_le_firstOutside hout

/-- A step completes, or stops by a fault that the state it started in accounts for; it is never refused. -/
theorem step_cases (s : State) :
    (∃ op, fetch s = .ok op ∧ s.OperandsWritten (decode op) ∧
      step s = .next (s.advance.afterExec (decode op))) ∨
      ∃ f : Fault, f.RaisedAt s ∧ step s = .fault f := by
  cases hf : fetch s with
  | error f => exact .inr ⟨f, fetch_error_raisedAt hf, step_of_fetch_error hf⟩
  | ok op =>
    by_cases hw : s.OperandsWritten (decode op)
    · exact .inl ⟨op, rfl, hw, step_completes_of_fetch hf hw⟩
    · obtain ⟨x, -, hx, he⟩ := exec_of_not_operandsWritten (mt operandsWritten_advance.1 hw)
      rw [advance_isWritten] at hx
      exact .inr ⟨.unwrittenRegister (.v x), hx, (step_of_fetch hf).trans he⟩

theorem step_next_cases {s t : State} (h : step s = .next t) :
    ∃ op, fetch s = .ok op ∧ s.OperandsWritten (decode op) ∧ t = s.advance.afterExec (decode op) := by
  obtain ⟨op, hf, he⟩ := step_next_iff.1 h
  obtain ⟨hw, ht⟩ := exec_next_iff.1 he
  exact ⟨op, hf, operandsWritten_advance.1 hw, ht⟩

theorem transact_step_of_fetch {s : State} {op : Word} (hf : fetch s = .ok op)
    (hw : s.OperandsWritten (decode op)) :
    transact .step s = (s.advance.afterExec (decode op), .status (reportedStatus (decode op))) := by
  rw [transact_step_next (step_completes_of_fetch hf hw), statusOutput_of_history (afterExec_history _ _)]

/-- A request of the host other than a step completed: it returns neither a status nor a fault, records nothing, keeps
memory canonical, clears no mark, and moves `PC` only where it names it. -/
structure HostCompletes (q : Request) (s : State) (p : State × Response) : Prop where
  noStatus : ∀ st, p.2 ≠ .status st
  noModelFault : ∀ f, p.2 ≠ .modelFault f
  history : p.1.history = s.history
  wf : s.mem.wf → p.1.mem.wf
  isWritten : ∀ r, s.isWritten r = true → p.1.isWritten r = true
  pc : q.leavesPc = true → p.1.pc = s.pc

/-- A read that answers with a value. -/
theorem hostCompletes_read {q : Request} {s : State} {r : Response} (noStatus : ∀ st, r ≠ .status st)
    (noModelFault : ∀ f, r ≠ .modelFault f) : HostCompletes q s (s, r) where
  noStatus := noStatus
  noModelFault := noModelFault
  history := rfl
  wf := id
  isWritten := fun _ => id
  pc := fun _ => rfl

theorem hostCompletes_done {q : Request} {s t : State} (history : t.history = s.history)
    (wf : s.mem.wf → t.mem.wf) (isWritten : ∀ r, s.isWritten r = true → t.isWritten r = true)
    (pc : q.leavesPc = true → t.pc = s.pc) : HostCompletes q s (t, .done) where
  noStatus := by simp
  noModelFault := by simp
  history := history
  wf := wf
  isWritten := isWritten
  pc := pc

theorem isWritten_setMem (s : State) (m : Memory) (r : Reg) : { s with mem := m }.isWritten r = s.isWritten r := by
  cases r <;> rfl

/-- A host read of a register gives its value, or the model's fault where it is unwritten. -/
theorem hostRead_cases {α : Type} {q : Request} (s : State) (r : Reg) {a : α} {k : α → Response}
    (hk : HostCompletes q s (s, k a)) :
    (∃ f : Fault, f.RaisedAt s ∧ s.hostRead r a k = s.raise f) ∨ HostCompletes q s (s.hostRead r a k) := by
  rw [hostRead_eq]
  cases hr : s.isWritten r with
  | false => exact .inl ⟨.unwrittenRegister r, hr, by simp [raise_unwritten]⟩
  | true => exact .inr hk

/-- Everything a transaction can do: a fault ends it, it is a step that completes, or it is another request that
completes. -/
theorem transact_cases (q : Request) (s : State) :
    (∃ f : Fault, f.RaisedAt s ∧ transact q s = s.raise f) ∨
      (q = .step ∧ ∃ op, fetch s = .ok op ∧ s.OperandsWritten (decode op) ∧
        transact q s = (s.advance.afterExec (decode op), .status (reportedStatus (decode op)))) ∨
      HostCompletes q s (transact q s) := by
  cases q with
  | step =>
    obtain ⟨op, hf, hw, -⟩ | ⟨f, hf, hs⟩ := step_cases s
    · exact .inr (.inl ⟨rfl, op, hf, hw, transact_step_of_fetch hf hw⟩)
    · exact .inl ⟨f, hf, transact_step_fault hs⟩
  | initializeCpu =>
    exact .inr (.inr (hostCompletes_done rfl id (fun r _ => initializeCpu_isWritten s r) (fun h => by cases h)))
  | writeV x b => exact .inr (.inr (hostCompletes_done rfl id (fun r h => by simp [h]) (fun _ => rfl)))
  | writeI w => exact .inr (.inr (hostCompletes_done rfl id (fun r h => by simp [h]) (fun _ => rfl)))
  | writePC w => exact .inr (.inr (hostCompletes_done rfl id (fun r h => by simp [h]) (fun h => by cases h)))
  | readV x => exact (hostRead_cases s (.v x) (hostCompletes_read (by simp) (by simp))).imp_right .inr
  | readI => exact (hostRead_cases s .i (hostCompletes_read (by simp) (by simp))).imp_right .inr
  | readPC => exact (hostRead_cases s .pc (hostCompletes_read (by simp) (by simp))).imp_right .inr
  | readByte a =>
    obtain hlt | hle := Nat.lt_or_ge a Config.memSize
    · rw [transact_readByte_of_lt hlt]
      exact .inr (.inr (hostCompletes_read (by simp) (by simp)))
    · exact .inl ⟨.addressOutOfRange a, hle, transact_readByte_of_le hle⟩
  | writeByte a v =>
    obtain hlt | hle := Nat.lt_or_ge a Config.memSize
    · rw [transact_writeByte_of_lt hlt]
      exact .inr (.inr (hostCompletes_done rfl (fun h => put_wf h hlt v)
        (fun r h => (isWritten_setMem s _ r).trans h) (fun _ => rfl)))
    · exact .inl ⟨.addressOutOfRange a, hle, transact_writeByte_of_le hle⟩
  | loadBytes start data =>
    obtain hlt | hle := Nat.lt_or_ge Config.memSize (start + data.length)
    · exact .inl ⟨.loadOverflow start data.length, hlt, transact_loadBytes_of_lt hlt⟩
    · rw [transact_loadBytes_of_le hle]
      exact .inr (.inr (hostCompletes_done rfl (fun h => putBytes_wf h hle)
        (fun r h => (isWritten_setMem s _ r).trans h) (fun _ => rfl)))

/-- The one induction over a sequence of requests: what each of them keeps, all of them keep. -/
theorem transactAll_keeps {P : State → Prop} {qs : List Request}
    (hq : ∀ q ∈ qs, ∀ s, P s → P (transact q s).1) {s : State} (hs : P s) : P (transactAll qs s) := by
  induction qs generalizing s with
  | nil => exact hs
  | cons q qs ih =>
    exact ih (fun q' hq' => hq q' (List.mem_cons_of_mem _ hq')) (hq q List.mem_cons_self s hs)

end Sys2Proof.Machine
end

section
/-! ### The record of statuses and the invariants (R32, R100, R135, R153) -/

namespace Sys2Proof.Machine

/-- Settles O40: a fault records the status it returns, if it is a condition of the block, a completed step its
instruction's, and any other request neither returns nor records one. -/
theorem recordIsTheReturnedStatuses : Obligations.RecordIsTheReturnedStatuses := by
  unfold Obligations.RecordIsTheReturnedStatuses
  intro q s
  obtain ⟨f, -, hq⟩ | ⟨-, op, -, -, hq⟩ | hc := transact_cases q s
  · rw [hq]
    cases hst : f.status with
    | none =>
      have hraise : s.raise f = (s, .modelFault f) := by simp only [State.raise, hst]
      rw [hraise]
      exact ⟨nofun, fun _ => rfl⟩
    | some st =>
      rw [raise_of_status hst]
      refine ⟨fun st' h => ?_, fun h => absurd rfl (h st)⟩
      cases h
      rfl
  · rw [hq]
    refine ⟨fun st h => ?_, fun h => absurd rfl (h _)⟩
    cases h
    exact afterExec_history _ _
  · exact ⟨fun st h => absurd h (hc.noStatus st), fun _ => hc.history⟩

theorem history_suffix_transact (q : Request) (s : State) : s.history <:+ (transact q s).1.history := by
  obtain ⟨hsome, hnone⟩ := recordIsTheReturnedStatuses q s
  by_cases h : ∃ st, (transact q s).2 = .status st
  · obtain ⟨st, hst⟩ := h
    rw [hsome st hst]
    exact List.suffix_cons _ _
  · rw [hnone fun st hst => h ⟨st, hst⟩]

theorem history_suffix_transactAll (qs : List Request) (s : State) : s.history <:+ (transactAll qs s).history :=
  transactAll_keeps (P := fun t => s.history <:+ t.history)
    (fun q _ t ht => ht.trans (history_suffix_transact q t)) List.suffix_rfl

/-- Settles O39: a transaction adds at most one status to the record's front. -/
theorem noTransactionClearsTheRecord : Obligations.NoTransactionClearsTheRecord := by
  unfold Obligations.NoTransactionClearsTheRecord
  exact history_suffix_transactAll

/-! Only coherent statuses are reported: by a step because decoding and encoding agree, by a fault because it is raised
outside its bound only. -/

theorem reportedStatus_coherent {i : Instr} (h : i.wellFormed = true) : (reportedStatus i).coherent = true := by
  have hd := decode_encode h
  cases i with
  | ldImm | addImm | addReg => exact decide_eq_true ⟨hd, by simp [Instr.mnemonic]⟩
  | unimpl op => exact decide_eq_true hd

theorem coherent_of_raisedAt {s : State} {f : Fault} {st : Status} (hf : f.RaisedAt s) (h : f.status = some st) :
    st.coherent = true := by
  cases f with
  | addressOutOfRange | loadOverflow =>
    cases h
    exact decide_eq_true hf
  | unwrittenRegister => cases h

theorem hostInv_report {s : State} (hs : s.HostInv) {st : Status} (hst : st.coherent = true) :
    (s.report st).HostInv :=
  ⟨hs.1, List.forall_mem_cons.2 ⟨hst, hs.2⟩⟩

theorem hostInv_raise {s : State} (hs : s.HostInv) {f : Fault} (hf : f.RaisedAt s) : (s.raise f).1.HostInv := by
  cases f with
  | addressOutOfRange | loadOverflow => exact hostInv_report hs (coherent_of_raisedAt hf rfl)
  | unwrittenRegister => exact hs

theorem hostInv_afterExec_decode {s : State} (hs : s.HostInv) (op : Word) :
    (s.advance.afterExec (decode op)).HostInv := by
  obtain ⟨hmem, hhist⟩ := hs
  refine ⟨?_, ?_⟩
  · rw [afterExec_mem, advance_mem]
    exact hmem
  · rw [afterExec_history, advance_history]
    exact List.forall_mem_cons.2 ⟨reportedStatus_coherent (wellFormed_decode op), hhist⟩

theorem transact_keeps_hostInv {q : Request} {s : State} (hs : s.HostInv) : (transact q s).1.HostInv := by
  obtain ⟨f, hf, hq⟩ | ⟨-, op, -, -, hq⟩ | hc := transact_cases q s
  · rw [hq]
    exact hostInv_raise hs hf
  · rw [hq]
    exact hostInv_afterExec_decode hs op
  · obtain ⟨hmem, hhist⟩ := hs
    exact ⟨hc.wf hmem, hc.history ▸ hhist⟩

/-- Settles O38, by induction over the requests. -/
theorem transactionsKeepTheInvariant : Obligations.TransactionsKeepTheInvariant := by
  unfold Obligations.TransactionsKeepTheInvariant
  exact fun _ _ hs => transactAll_keeps (P := State.HostInv) (fun _ _ _ => transact_keeps_hostInv) hs

/-- Settles O37: the reported status is coherent because the opcode's decoding encodes it, and `PC` was at most 4094 for
the fetch to succeed. -/
theorem stepKeepsTheInvariant : Obligations.StepKeepsTheInvariant := by
  unfold Obligations.StepKeepsTheInvariant
  rintro s t ⟨hs, -⟩ h
  obtain ⟨op, hf, -, rfl⟩ := step_next_cases h
  obtain ⟨-, hpc, -⟩ := fetch_eq_ok_iff.1 hf
  refine ⟨hostInv_afterExec_decode hs op, ?_⟩
  rw [step_next_pc_toNat h]
  exact hpc

/-- Settles O3: the reset state lists no memory and records nothing. -/
theorem resetMeetsTheInvariant : Obligations.ResetMeetsTheInvariant := by
  unfold Obligations.ResetMeetsTheInvariant
  exact ⟨⟨wf_nil, by simp [State.reset]⟩, by decide⟩

end Sys2Proof.Machine
end

section
/-! ### Canonical memory: what it lists is what it reads as (R45, R159) -/

namespace Sys2Proof.Machine

theorem get_of_not_listed {m : Memory} {a : Nat} (h : ∀ c ∈ m, c.1 ≠ a) : m.get a = Config.unlistedByte := by
  induction m with
  | nil => rfl
  | cons c m ih =>
    obtain ⟨hc, hm⟩ := List.forall_mem_cons.1 h
    rw [show Memory.get (c :: m) a = if a = c.1 then c.2 else Memory.get m a from rfl, if_neg (Ne.symm hc)]
    exact ih hm

/-- Strictly rising addresses list each one once, so that the first entry found is the only one. -/
theorem get_of_mem {m : Memory} (hm : m.wf) {c : Host.Cell} (h : c ∈ m) : m.get c.1 = c.2 := by
  induction m with
  | nil => cases h
  | cons d m ih =>
    obtain ⟨hlt, -, -, hwf⟩ := wf_cons.1 hm
    rw [show Memory.get (d :: m) c.1 = if c.1 = d.1 then d.2 else Memory.get m c.1 from rfl]
    obtain rfl | h := List.mem_cons.1 h
    · exact if_pos rfl
    · have := hlt c h
      rw [if_neg (by omega), ih hwf h]

/-- A canonical memory lists exactly the cells that read as something else than an unlisted one. -/
theorem mem_iff_get {m : Memory} (hm : m.wf) {c : Host.Cell} :
    c ∈ m ↔ m.get c.1 = c.2 ∧ c.2 ≠ Config.unlistedByte := by
  constructor
  · exact fun h => ⟨get_of_mem hm h, (hm.2 c h).2⟩
  · rintro ⟨hget, hne⟩
    by_contra h
    refine hne (hget.symm.trans (get_of_not_listed fun d hd heq => h ?_))
    have hdc : d.2 = c.2 := by rw [← get_of_mem hm hd, heq, hget]
    rwa [show c = d from Prod.ext heq.symm hdc.symm]

/-- No cell at or above 4096 is listed. -/
theorem get_out_of_range {m : Memory} (hm : m.wf) {a : Nat} (ha : Config.memSize ≤ a) :
    m.get a = Config.unlistedByte :=
  get_of_not_listed fun c hc heq => by
    have := (hm.2 c hc).1
    omega

theorem get_eq_of_memRead {m m' : Memory} (hm : m.wf) (hm' : m'.wf) (h : ∀ a, memRead m a = memRead m' a)
    (a : Nat) : m.get a = m'.get a := by
  obtain hlt | hle := Nat.lt_or_ge a Config.memSize
  · have ha := h a
    rw [memRead_ok hlt, memRead_ok hlt] at ha
    exact Except.ok.inj ha
  · rw [get_out_of_range hm hle, get_out_of_range hm' hle]

/-- Settles O9: the memories list the same cells, each in the one order of rising addresses. -/
theorem equalBytesAreEqualMemories : Obligations.EqualBytesAreEqualMemories := by
  unfold Obligations.EqualBytesAreEqualMemories
  intro m m' hm hm' h
  have hmem : ∀ c, c ∈ m ↔ c ∈ m' := fun c => by
    rw [mem_iff_get hm, mem_iff_get hm', get_eq_of_memRead hm hm' h]
  have hirrefl : Std.Irrefl fun c d : Host.Cell => c.1 < d.1 := ⟨fun c => Nat.lt_irrefl c.1⟩
  have hantisymm : Std.Antisymm fun c d : Host.Cell => c.1 < d.1 :=
    ⟨fun c d hcd hdc => absurd hdc (Nat.lt_asymm hcd)⟩
  exact hm.1.eq_of_mem_iff hm'.1 hmem

theorem mem_ofInit {memInit : Fin Config.memSize → Byte} {c : Host.Cell} :
    c ∈ Memory.ofInit memInit ↔ ∃ a, memInit a ≠ Config.unlistedByte ∧ (a.val, memInit a) = c := by
  unfold Memory.ofInit
  rw [List.mem_filterMap]
  refine exists_congr fun a => ?_
  by_cases hv : memInit a = Config.unlistedByte <;> simp [hv]

theorem get_ofInit (memInit : Fin Config.memSize → Byte) (a : Fin Config.memSize) :
    (Memory.ofInit memInit).get a.val = memInit a := by
  by_cases hv : memInit a = Config.unlistedByte
  · rw [hv]
    refine get_of_not_listed fun c hc heq => ?_
    obtain ⟨b, hb, rfl⟩ := mem_ofInit.1 hc
    rw [Fin.ext heq] at hb
    exact hb hv
  · exact get_of_mem (ofInit_wf memInit) (mem_ofInit.2 ⟨a, hv, rfl⟩)

/-- Settles O4: the cells listed are those of `MEM_INIT` that differ from an unlisted one, and nothing is recorded
yet. -/
theorem constructedMemoryReadsAsMemInit : Obligations.ConstructedMemoryReadsAsMemInit := by
  unfold Obligations.ConstructedMemoryReadsAsMemInit
  refine fun memInit v i pc => ⟨⟨ofInit_wf memInit, by simp⟩, fun a ha => ?_⟩
  rw [construct_mem, memRead_ok ha]
  exact congrArg Except.ok (get_ofInit memInit ⟨a, ha⟩)

end Sys2Proof.Machine
end

section
/-! ### The host's port: registers, `initializeCpu` and the edges of a load (R38, R55, R155 to R158) -/

namespace Sys2Proof.Machine

theorem transact_readV {s : State} {x : RegIdx} (h : s.isWritten (.v x) = true) :
    transact (.readV x) s = (s, .byte (s.readV x)) :=
  (hostRead_eq s (.v x) _ _).trans (by rw [if_pos h])

theorem transact_readI {s : State} (h : s.isWritten .i = true) : transact .readI s = (s, .word s.i) :=
  (hostRead_eq s .i _ _).trans (by rw [if_pos h])

theorem transact_readPC {s : State} (h : s.isWritten .pc = true) : transact .readPC s = (s, .word s.pc) :=
  (hostRead_eq s .pc _ _).trans (by rw [if_pos h])

theorem hostRead_unwritten {α : Type} {s : State} {r : Reg} (h : s.isWritten r = false) (a : α) (k : α → Response) :
    s.hostRead r a k = (s, .modelFault (.unwrittenRegister r)) := by
  rw [hostRead_eq, if_neg (by simp [h])]

theorem hostRead_state {α : Type} (s : State) (r : Reg) (a : α) (k : α → Response) : (s.hostRead r a k).1 = s := by
  rw [hostRead_eq]

/-- Settles O10: the writes by the laws of each register's write, the reads by the one law of a host read. -/
theorem registerPortSetsExactlyOne : Obligations.RegisterPortSetsExactlyOne := by
  unfold Obligations.RegisterPortSetsExactlyOne
  intro s x b w
  refine ⟨?writeV, ?writeI, ?writePC, transact_readV, transact_readI, transact_readPC,
    hostRead_state s _ _ _, hostRead_state s _ _ _, hostRead_state s _ _ _⟩
  case writeV => exact ⟨_, rfl, fun j => readV_writeV s x j b, fun r => by simp, rfl, rfl, rfl, rfl⟩
  case writeI => exact ⟨_, rfl, rfl, fun _ => rfl, fun r => by simp, rfl, rfl, rfl⟩
  case writePC => exact ⟨_, rfl, rfl, fun _ => rfl, fun r => by simp, rfl, rfl, rfl⟩

/-- Settles O1: every register field is given a fixed value, so that memory and the record alone remain of the state
before. -/
theorem initializeSetsRegistersOnly : Obligations.InitializeSetsRegistersOnly := by
  unfold Obligations.InitializeSetsRegistersOnly
  refine ⟨fun s => ⟨initializeCpu_readV s, rfl, rfl, initializeCpu_isWritten s, fun _ => rfl, rfl, rfl⟩, ?_⟩
  intro s t hmem hhist
  simp only [initializeCpu, hmem, hhist]

/-- Settles O2: the values `initializeCpu` gives, over whatever memory was constructed, and those of the reset state. -/
theorem stateAfterInitialize : Obligations.StateAfterInitialize := by
  unfold Obligations.StateAfterInitialize
  refine ⟨fun memInit v i pc => ⟨initializeCpu_readV _, rfl, rfl, rfl, fun _ => rfl⟩, fun j => ?_, rfl, rfl, rfl⟩
  simp [State.reset, State.readV]

/-- Settles O8: each case on its side of the bound; the bound is the only check a load makes. -/
theorem loadBytesEdgeCases : Obligations.LoadBytesEdgeCases := by
  unfold Obligations.LoadBytesEdgeCases
  refine fun s => ⟨fun start h => ?empty, fun start h => ?emptyAbove, fun b => ?oneFits, fun b c => ?twoOverflow,
    fun start data a => ?neverOutOfRange⟩
  case empty => exact transact_loadBytes_of_le h
  case emptyAbove => rw [transact_loadBytes_of_lt h]; rfl
  case oneFits => rw [transact_loadBytes_of_le (Nat.le_refl 4096)]
  case twoOverflow => rw [transact_loadBytes_of_lt (Nat.lt_succ_self 4096)]; rfl
  case neverOutOfRange =>
    obtain hlt | hle := Nat.lt_or_ge Config.memSize (start + data.length)
    · rw [transact_loadBytes_of_lt hlt]
      simp
    · rw [transact_loadBytes_of_le hle]
      simp

end Sys2Proof.Machine
end

section
/-! ### The fetch and the step it leads to: where it fails, and the bytes the host has placed (R71, R92, R161) -/

namespace Sys2Proof.Machine

/-- Settles O21: the fetch's one law for each side of the bound; inside, only an unwritten operand stops the step. -/
theorem stepFailsExactlyOutsideMemory : Obligations.StepFailsExactlyOutsideMemory := by
  unfold Obligations.StepFailsExactlyOutsideMemory
  refine fun s hw => ⟨fun h => ?outside, fun h => ?lastByte, fun h => ?inside⟩
  case outside => rw [step_of_fetch_error (fetch_out_of_range hw (by omega)), if_pos h]
  case lastByte => rw [step_of_fetch_error (fetch_out_of_range hw h.ge), if_neg (by omega), h]; rfl
  case inside =>
    obtain ⟨op, hf⟩ := fetch_of_canFetch ⟨hw, h⟩
    exact ⟨op, hf, fun hops => ⟨_, step_completes_of_fetch hf hops⟩⟩

/-- Settles O19: the fetch assembles the two bytes read. -/
theorem stepRunsTheDecodedInstruction : Obligations.StepRunsTheDecodedInstruction := by
  unfold Obligations.StepRunsTheDecodedInstruction
  rintro s hi lo i hw hhi hlo rfl -
  exact step_of_fetch (fetch_of_reads hw hhi hlo)

theorem fetch_setMem_of_reads {s : State} {m : Memory} {hi lo : Byte} (hw : s.isWritten .pc = true)
    (hhi : memRead m s.pc.toNat = .ok hi) (hlo : memRead m (s.pc.toNat + 1) = .ok lo) :
    fetch { s with mem := m } = .ok (assemble hi lo) :=
  fetch_of_reads ((isWritten_setMem s m .pc).trans hw) hhi hlo

/-- Settles O11: the second write leaves the first one's byte, and the fetch reads both. -/
theorem hostWriteIsSeenByTheNextFetch : Obligations.HostWriteIsSeenByTheNextFetch := by
  unfold Obligations.HostWriteIsSeenByTheNextFetch
  rintro s hi lo hm ⟨hw, hpc⟩ t
  have hpc' : s.pc.toNat < Config.memSize := by omega
  have hm' : (s.mem.put s.pc.toNat hi).wf := put_wf hm hpc' hi
  have ht : t = { s with mem := (s.mem.put s.pc.toNat hi).put (s.pc.toNat + 1) lo } := by
    simp only [t, transactAll, transact_writeByte_of_lt hpc', transact_writeByte_of_lt hpc]
  have hf : fetch t = .ok (assemble hi lo) := by
    rw [ht]
    refine fetch_setMem_of_reads hw ?_ ?_
    · rw [memRead_put hm' hpc, if_neg (by omega), memRead_put hm hpc', if_pos rfl]
    · rw [memRead_put hm' hpc, if_pos rfl]
  exact ⟨hf, step_of_fetch hf⟩

theorem tableWord_toNat (op : Word) : tableWord 16 op.toNat = op := by
  rw [tableWord, Nat.mod_eq_of_lt op.isLt, BitVec.ofNat_toNat, BitVec.setWidth_eq]

theorem withFetchWord_eq {s : State} (h : s.pc.toNat + 1 < Config.memSize) (op : Word) :
    s.withFetchWord 16 op.toNat = { s with mem := s.mem.putBytes s.pc.toNat (opBytes op) } := by
  rw [State.withFetchWord, tableWord_toNat, placeOpcode_eq h]

theorem fetch_putBytes_opBytes {s : State} (hm : s.mem.wf) (h : s.CanFetch) (op : Word) :
    fetch { s with mem := s.mem.putBytes s.pc.toNat (opBytes op) } = .ok op := by
  obtain ⟨hw, hpc⟩ := h
  have hfits : s.pc.toNat + (opBytes op).length ≤ Config.memSize := hpc
  have hreads := fetch_setMem_of_reads hw (memRead_putBytes_inside hm hfits (k := 0) Nat.zero_lt_two)
    (memRead_putBytes_inside hm hfits (k := 1) Nat.one_lt_two)
  rw [hreads]
  exact congrArg Except.ok (assemble_bytes op)

/-- Settles O20: the placed opcode is fetched back and, the instruction being well formed, decodes to it. -/
theorem placedInstructionRunsNext : Obligations.PlacedInstructionRunsNext := by
  unfold Obligations.PlacedInstructionRunsNext
  intro s i hm hcan hi t
  have hfits : s.pc.toNat + (opBytes (encode i)).length ≤ Config.memSize := hcan.2
  have ht : t = { s with mem := s.mem.putBytes s.pc.toNat (opBytes (encode i)) } := withFetchWord_eq hcan.2 _
  have hf : fetch t = .ok (encode i) := by
    rw [ht]
    exact fetch_putBytes_opBytes hm hcan _
  have hstep : step t = exec i t.advance := by rw [step_of_fetch hf, decode_encode hi]
  refine ⟨hstep, ?_⟩
  rw [ht]
  refine ⟨rfl, rfl, rfl, rfl, rfl, putBytes_wf hm hfits, fun a h0 h1 => ?_⟩
  refine memRead_putBytes_outside hm hfits ?_
  simp only [opBytes, List.length_cons, List.length_nil]
  omega

end Sys2Proof.Machine
end

section
/-! ### What an instruction writes: its destinations, their new values, and the frame (R22, R110, R120, R122) -/

namespace Sys2Proof.Machine

/-- The registers an instruction writes (the write column of R22); `frame_afterExec` ties them to the model. -/
def writes : Instr → RegIdx → Prop
  | .ldImm x _ => fun j => j = x
  | .addImm x _ => fun j => j = x
  | .addReg x _ => fun j => j = x ∨ j = 15
  | .unimpl _ => fun _ => False

theorem frame_afterExec_addReg (s : State) (x y : RegIdx) :
    Frame (fun j => j = x ∨ j = 15) s (s.afterExec (.addReg x y)) := by
  refine ⟨fun j hj => ?outside, fun j hj => ?destination, rfl, ?markI, rfl, ?markPc, fun _ => rfl⟩
  case outside =>
    obtain ⟨hx, hvf⟩ := not_or.1 hj
    exact ⟨by simp [State.afterExec, vf, hx, hvf], by simp [State.afterExec, vf, hx, hvf]⟩
  case destination =>
    obtain rfl | rfl := hj
    · simp [State.afterExec]
    · simp [State.afterExec, vf]
  case markI => simp [State.afterExec]
  case markPc => simp [State.afterExec]

theorem frame_afterExec (s : State) (i : Instr) : Frame (writes i) s (s.afterExec i) := by
  cases i with
  | ldImm x nn => exact frame_writeV_report s x nn _
  | addImm x nn => exact frame_afterExec_addImm s x nn
  | addReg x y => exact frame_afterExec_addReg s x y
  | unimpl op => exact frame_report s _

/-- The ninth bit of an exact sum of two bytes is set exactly above 255. -/
theorem add8_carry_toNat (a b : Byte) :
    (add8 a b).2.toNat = if a.toNat + b.toNat > 255 then 1 else 0 := by
  have ha : a.toNat < 256 := a.isLt
  have hb : b.toNat < 256 := b.isLt
  rw [add8, BitVec.extractLsb'_toNat, sum9_toNat, Nat.shiftRight_eq_div_pow]
  split
  next h => omega
  next h => omega

/-- Settles O27. -/
theorem adderGivesSumAndCarry : Obligations.AdderGivesSumAndCarry := by
  unfold Obligations.AdderGivesSumAndCarry
  exact fun a b => ⟨add8_sum_toNat a b, add8_carry_toNat a b⟩

/-! The values written, by the values read. -/

theorem readV_afterExec_ldImm (s : State) (x : RegIdx) (nn : Byte) :
    (s.afterExec (.ldImm x nn)).readV x = nn := by
  rw [State.afterExec, report_readV, readV_writeV_same]

theorem readV_afterExec_addReg {x : RegIdx} (hx : x ≠ 15) (s : State) (y : RegIdx) :
    (s.afterExec (.addReg x y)).readV x = (add8 (s.readV x) (s.readV y)).1 := by
  rw [State.afterExec, report_readV, readV_writeCarry, if_neg (show x ≠ vf from hx), readV_writeV_same]

theorem readVF_afterExec_addReg (s : State) (x y : RegIdx) :
    (s.afterExec (.addReg x y)).readV 15 = (add8 (s.readV x) (s.readV y)).2.setWidth 8 := by
  rw [State.afterExec, report_readV, readV_writeCarry]
  rfl

/-- `VF` after ADD_REG is the carry, written whole (R122), whichever the operands. -/
theorem readVF_afterExec_addReg_eq_ite (s : State) (x y : RegIdx) :
    (s.afterExec (.addReg x y)).readV 15 = if (s.readV x).toNat + (s.readV y).toNat > 255 then 1 else 0 := by
  apply BitVec.eq_of_toNat_eq
  rw [readVF_afterExec_addReg, BitVec.toNat_setWidth, add8_carry_toNat]
  split <;> rfl

theorem readV_afterExec_addReg_toNat {x : RegIdx} (hx : x ≠ 15) (s : State) (y : RegIdx) :
    ((s.afterExec (.addReg x y)).readV x).toNat = ((s.readV x).toNat + (s.readV y).toNat) % 256 := by
  rw [readV_afterExec_addReg hx, add8_sum_toNat]

/-- The state ADD_REG completes in, as R122 describes it. -/
theorem addReg_writes_sum_and_carry (s : State) (x y : RegIdx) :
    (x ≠ 15 → ((s.afterExec (.addReg x y)).readV x).toNat = ((s.readV x).toNat + (s.readV y).toNat) % 256) ∧
      ((s.afterExec (.addReg x y)).readV 15).toNat =
        (if (s.readV x).toNat + (s.readV y).toNat > 255 then 1 else 0) ∧
      Frame (fun j => j = x ∨ j = 15) s (s.afterExec (.addReg x y)) := by
  refine ⟨fun hx => readV_afterExec_addReg_toNat hx s y, ?_, frame_afterExec_addReg s x y⟩
  rw [readVF_afterExec_addReg_eq_ite]
  split <;> rfl

theorem exec_addReg_of_written {s : State} {x y : RegIdx} (hx : s.isWritten (.v x) = true)
    (hy : s.isWritten (.v y) = true) : exec (.addReg x y) s = .next (s.afterExec (.addReg x y)) :=
  exec_of_operandsWritten (operandsWritten_addReg.2 ⟨hx, hy⟩)

theorem exec_addImm_of_written {s : State} {x : RegIdx} {nn : Byte} (hx : s.isWritten (.v x) = true) :
    exec (.addImm x nn) s = .next (s.afterExec (.addImm x nn)) :=
  exec_of_operandsWritten (operandsWritten_addImm.2 hx)

theorem step_of_fetch_ldImm {s : State} {op : Word} (hf : fetch s = .ok op)
    (hop : op &&& 0xF000#16 = 0x6000#16) :
    step s = .next (s.advance.afterExec (.ldImm (opX op) (opNN op))) := by
  rw [step_of_fetch hf, decode_of_class_six (masked_eq_ldImm_iff.1 hop)]
  exact exec_ldImm _ _ _

theorem step_of_fetch_addReg {s : State} {op : Word} (hf : fetch s = .ok op)
    (hop : op &&& 0xF00F#16 = 0x8004#16) (hx : s.isWritten (.v (opX op)) = true)
    (hy : s.isWritten (.v (opY op)) = true) :
    step s = .next (s.advance.afterExec (.addReg (opX op) (opY op))) := by
  obtain ⟨hc, hn⟩ := masked_eq_addReg_iff.1 hop
  rw [step_of_fetch hf, decode_of_class_eight hc, decodeClass8_of_n_four hn]
  exact exec_addReg_of_written ((advance_isWritten _ _).trans hx) ((advance_isWritten _ _).trans hy)

/-- Settles O28: the instruction and, on the advanced state, the step that fetched it. -/
theorem ldImmLoadsTheImmediate : Obligations.LdImmLoadsTheImmediate := by
  unfold Obligations.LdImmLoadsTheImmediate
  refine ⟨fun x nn s => ⟨_, exec_ldImm x nn s, ?_⟩, fun s op hf hop => ?_⟩
  · exact ⟨readV_afterExec_ldImm s x nn, frame_afterExec s (.ldImm x nn)⟩
  · exact ⟨_, opX op, opNN op, step_of_fetch_ldImm hf hop, opX_val op, opNN_toNat op,
      readV_afterExec_ldImm _ _ _, frame_afterExec s.advance (.ldImm (opX op) (opNN op))⟩

/-- Settles O30: `VF` as a destination is written like any other, and the frame covers the rest. -/
theorem vfIsAnOrdinaryDestination : Obligations.VfIsAnOrdinaryDestination := by
  unfold Obligations.VfIsAnOrdinaryDestination
  refine fun nn s => ⟨⟨_, exec_ldImm 15 nn s, readV_afterExec_ldImm s 15 nn, fun j hj => ?_⟩,
    fun hw => ⟨_, exec_addImm_of_written hw, ?_, fun j hj => ?_⟩⟩
  · exact readV_of_frame (frame_afterExec s (.ldImm 15 nn)) hj
  · rw [readV_afterExec_addImm, add8_sum_toNat]
  · exact readV_of_frame (frame_afterExec s (.addImm 15 nn)) hj

/-- Settles O31: one description of the completed state, for `exec` and, on the advanced state, for the step. -/
theorem addRegWritesSumThenCarry : Obligations.AddRegWritesSumThenCarry := by
  unfold Obligations.AddRegWritesSumThenCarry
  refine ⟨fun x y s hx hy => ⟨_, exec_addReg_of_written hx hy, addReg_writes_sum_and_carry s x y⟩, ?_⟩
  exact fun s op hf hop => ⟨opX op, opY op, opX_val op, opY_val op, fun hx hy =>
    ⟨_, step_of_fetch_addReg hf hop hx hy, addReg_writes_sum_and_carry s.advance (opX op) (opY op)⟩⟩

theorem readVF_afterExec_addReg_eq_one_iff (s : State) (x y : RegIdx) :
    (s.afterExec (.addReg x y)).readV 15 = 1 ↔ (s.readV x).toNat + (s.readV y).toNat > 255 := by
  rw [readVF_afterExec_addReg_eq_ite]
  split
  next h => simp [h]
  next h => simp [h]

theorem readVF_afterExec_addReg_zero_or_one (s : State) (x y : RegIdx) :
    (s.afterExec (.addReg x y)).readV 15 = 0 ∨ (s.afterExec (.addReg x y)).readV 15 = 1 := by
  rw [readVF_afterExec_addReg_eq_ite]
  split
  next => exact .inr rfl
  next => exact .inl rfl

/-- A byte added to itself carries exactly when its top bit is set. -/
theorem readVF_afterExec_addReg_self (s : State) (x : RegIdx) :
    (s.afterExec (.addReg x x)).readV 15 = if (s.readV x).toNat ≥ 128 then 1 else 0 := by
  rw [readVF_afterExec_addReg_eq_ite]
  exact if_congr (by omega) rfl rfl

/-- Settles O32: every case is the general description, since both operands are read before the first write. -/
theorem addRegReadsBeforeItWrites : Obligations.AddRegReadsBeforeItWrites := by
  unfold Obligations.AddRegReadsBeforeItWrites
  intro x y s hx _ hwx hwy hwvf
  refine ⟨⟨_, exec_addReg_of_written hwx hwvf, ?vfAsSource⟩, ⟨_, exec_addReg_of_written hwvf hwy, ?vfAsDestination⟩,
    ⟨_, exec_addReg_of_written hwvf hwvf, readVF_afterExec_addReg_self s 15⟩,
    ⟨_, exec_addReg_of_written hwx hwx, ?doubled, readVF_afterExec_addReg_self s x⟩⟩
  case vfAsSource =>
    exact ⟨readV_afterExec_addReg_toNat hx s 15, readVF_afterExec_addReg_eq_one_iff s x 15,
      readVF_afterExec_addReg_zero_or_one s x 15⟩
  case vfAsDestination =>
    exact ⟨readVF_afterExec_addReg_eq_one_iff s 15 y, readVF_afterExec_addReg_zero_or_one s 15 y,
      fun j hj => readV_of_frame (frame_afterExec_addReg s 15 y) (not_or.2 ⟨hj, hj⟩)⟩
  case doubled => rw [readV_afterExec_addReg_toNat hx, Nat.two_mul]

/-- Settles O36: the completed state keeps `PC`, `I` and memory; an unwritten operand is the one other end. -/
theorem everyInstructionCompletes : Obligations.EveryInstructionCompletes := by
  unfold Obligations.EveryInstructionCompletes
  refine ⟨fun i s h => ?_, fun i s h => exec_of_not_operandsWritten h⟩
  exact ⟨_, exec_of_operandsWritten h, afterExec_pc s i, afterExec_i s i, afterExec_mem s i⟩

/-- Settles O24: the fetch and the advance leave `I` and memory, and so does every instruction. -/
theorem stepKeepsMemoryAndIndex : Obligations.StepKeepsMemoryAndIndex := by
  unfold Obligations.StepKeepsMemoryAndIndex
  intro s t h
  obtain ⟨op, -, -, rfl⟩ := step_next_cases h
  have hmem : (s.advance.afterExec (decode op)).mem = s.mem := by rw [afterExec_mem, advance_mem]
  exact ⟨afterExec_i _ _, hmem, fun a => by rw [hmem]⟩

/-- The write column of R22, in terms of the opcode. -/
theorem writes_decode {op : Word} {j : RegIdx} (h : writes (decode op) j) :
    (op.toNat / 4096 = 6 ∨ op.toNat / 4096 = 7) ∧ j.val = op.toNat / 256 % 16 ∨
      op.toNat / 4096 = 8 ∧ op.toNat % 16 = 4 ∧ (j.val = op.toNat / 256 % 16 ∨ j = 15) := by
  rw [← opX_val]
  obtain ⟨hc, hd⟩ | ⟨hc, hd⟩ | ⟨hc, hn, hd⟩ | ⟨-, -, -, hd⟩ := decode_cases op
  · rw [hd] at h
    exact .inl ⟨.inl (opClass_eq_iff.1 hc), congrArg Fin.val h⟩
  · rw [hd] at h
    exact .inl ⟨.inr (opClass_eq_iff.1 hc), congrArg Fin.val h⟩
  · rw [hd] at h
    exact .inr ⟨opClass_eq_iff.1 hc, opN_eq_iff.1 hn, h.imp_left (congrArg Fin.val)⟩
  · rw [hd] at h
    exact h.elim

/-- Settles O25: a changed register is outside the frame, so it is one the decoded instruction writes. -/
theorem stepWritesOnlyTheNamedRegisters : Obligations.StepWritesOnlyTheNamedRegisters := by
  unfold Obligations.StepWritesOnlyTheNamedRegisters
  intro s t op hf h j hj
  obtain ⟨op', hf', -, rfl⟩ := step_next_cases h
  obtain rfl : op' = op := Except.ok.inj (hf'.symm.trans hf)
  refine writes_decode (by_contra fun hw => hj ?_)
  rw [readV_of_frame (frame_afterExec _ _) hw, advance_readV]

/-- An implemented opcode is the one encoding of its decoding, so that the status names it (log entry 5). -/
theorem reportedStatus_decode {op : Word} (h : decode op ≠ .unimpl op) :
    reportedStatus (decode op) = .executed op (decode op) := by
  have hop := encode_decode op
  cases hd : decode op with
  | ldImm | addImm | addReg =>
    rw [hd] at hop
    rw [reportedStatus, hop]
  | unimpl op' =>
    rw [hd] at hop
    obtain rfl : op' = op := hop
    exact absurd hd h

/-- Settles O26: by what the fetch gives, an opcode without a handler, one with a handler, or an address. -/
theorem stepReportsExactlyOneStatus : Obligations.StepReportsExactlyOneStatus := by
  unfold Obligations.StepReportsExactlyOneStatus
  refine fun s hw => ⟨fun op hf hd => ?unimplemented, fun op hf hd hops => ?executed, fun f hf => ?failed⟩
  case unimplemented => exact ⟨_, transact_step_of_fetch_unimpl hf hd, rfl, rfl⟩
  case executed =>
    have hstep := transact_step_of_fetch hf hops
    have hhist := afterExec_history s.advance (decode op)
    rw [reportedStatus_decode hd] at hstep hhist
    exact ⟨_, hstep, hhist, rfl⟩
  case failed =>
    obtain ⟨hunwritten, -⟩ | ⟨-, rfl⟩ := fetch_error_cases hf
    · rw [hw] at hunwritten
      cases hunwritten
    · exact ⟨_, rfl, transact_step_fault (step_of_fetch_error hf), rfl⟩

/-- Settles O35: the written values, as functions of the values read. -/
theorem instructionsReadOnlyTheNamedRegisters : Obligations.InstructionsReadOnlyTheNamedRegisters := by
  unfold Obligations.InstructionsReadOnlyTheNamedRegisters
  refine fun s s' x y nn => ⟨⟨_, _, exec_ldImm x nn s, exec_ldImm x nn s', ?ldImm⟩,
    fun hx hx' hvx => ⟨_, _, exec_addImm_of_written hx, exec_addImm_of_written hx', ?addImm⟩,
    fun hx hx' hvx hy hy' hvy => ⟨_, _, exec_addReg_of_written hx hy, exec_addReg_of_written hx' hy', ?addReg⟩⟩
  case ldImm => rw [readV_afterExec_ldImm, readV_afterExec_ldImm]
  case addImm => rw [readV_afterExec_addImm, readV_afterExec_addImm, hvx]
  case addReg =>
    have hvf : (s.afterExec (.addReg x y)).readV 15 = (s'.afterExec (.addReg x y)).readV 15 := by
      rw [readVF_afterExec_addReg, readVF_afterExec_addReg, hvx, hvy]
    refine ⟨?_, hvf⟩
    by_cases h15 : x = 15
    · rw [h15] at hvf ⊢
      exact hvf
    · rw [readV_afterExec_addReg h15, readV_afterExec_addReg h15, hvx, hvy]

end Sys2Proof.Machine
end

section
/-! ### Unwritten registers: where the model's fault is met, and that marks are never cleared (R158) -/

namespace Sys2Proof.Machine

/-- Settles O49: each read of a register is checked first, and a fault of the model is neither recorded nor a status. -/
theorem unwrittenReadIsAModelFault : Obligations.UnwrittenReadIsAModelFault := by
  unfold Obligations.UnwrittenReadIsAModelFault
  refine ⟨fun s h => ?fetch, fun x nn s hx => ?addImm, fun x y s => ⟨fun hx => ?addRegX, fun hx hy => ?addRegY⟩,
    fun s r h => ?stepTransaction, fun s x => ⟨?readV, ?readI, ?readPC⟩, fun f v i pc r => ?constructed⟩
  case fetch => exact step_of_fetch_error (fetch_unwritten h)
  case addImm => rw [exec_addImm, if_neg (by simp [hx])]
  case addRegX => rw [exec_addReg, if_neg (by simp [hx])]
  case addRegY => rw [exec_addReg, if_pos hx, if_neg (by simp [hy])]
  case stepTransaction => rw [transact_step_fault h, raise_unwritten]
  case readV => exact fun h => hostRead_unwritten h _ _
  case readI => exact fun h => hostRead_unwritten h _ _
  case readPC => exact fun h => hostRead_unwritten h _ _
  case constructed => exact construct_isWritten f v i pc r

theorem raise_isWritten (s : State) (f : Fault) (r : Reg) : (s.raise f).1.isWritten r = s.isWritten r := by
  cases f with
  | addressOutOfRange | loadOverflow => exact report_isWritten s _ r
  | unwrittenRegister => rfl

theorem transact_isWritten {s : State} {r : Reg} (h : s.isWritten r = true) (q : Request) :
    (transact q s).1.isWritten r = true := by
  obtain ⟨f, -, hq⟩ | ⟨-, op, -, -, hq⟩ | hc := transact_cases q s
  · rw [hq, raise_isWritten, h]
  · rw [hq]
    exact afterExec_isWritten ((advance_isWritten s r).trans h) _
  · exact hc.isWritten r h

theorem transactAll_isWritten {s : State} {r : Reg} (h : s.isWritten r = true) (qs : List Request) :
    (transactAll qs s).isWritten r = true :=
  transactAll_keeps (P := fun t => t.isWritten r = true) (fun q _ _ ht => transact_isWritten ht q) h

theorem transactAll_allWritten {s : State} (h : s.AllWritten) (qs : List Request) : (transactAll qs s).AllWritten :=
  written_all_iff.2 fun r => transactAll_isWritten (written_all_iff.1 h r) qs

theorem transact_allWritten {s : State} (h : s.AllWritten) (q : Request) : (transact q s).1.AllWritten :=
  transactAll_allWritten h [q]

theorem raise_eq_modelFault {s : State} {f g : Fault} (h : (s.raise f).2 = .modelFault g) :
    ∃ r, f = .unwrittenRegister r := by
  cases f with
  | addressOutOfRange | loadOverflow => cases h
  | unwrittenRegister r => exact ⟨r, rfl⟩

theorem transact_ne_modelFault {s : State} (h : s.AllWritten) (q : Request) (f : Fault) :
    (transact q s).2 ≠ .modelFault f := by
  intro hr
  obtain ⟨g, hg, hq⟩ | ⟨-, op, -, -, hq⟩ | hc := transact_cases q s
  · rw [hq] at hr
    obtain ⟨r, rfl⟩ := raise_eq_modelFault hr
    have hw : s.isWritten r = false := hg
    rw [written_all_iff.1 h r] at hw
    cases hw
  · rw [hq] at hr
    cases hr
  · exact hc.noModelFault f hr

/-- Settles O51: a mark once set is kept by every transaction, and `initializeCpu` sets all of them. -/
theorem writtenRegistersStayWritten : Obligations.WrittenRegistersStayWritten := by
  unfold Obligations.WrittenRegistersStayWritten
  refine ⟨fun qs s r h => transactAll_isWritten h qs, fun qs s => ?_, fun q s f h => transact_ne_modelFault h q f⟩
  exact transactAll_allWritten (initializeCpu_written s) qs

end Sys2Proof.Machine
end

section
/-! ### What a step does not depend on: `I`, the other bytes of memory, the record, unwritten values (R27, R33, R105) -/

namespace Sys2Proof.Machine

/-- Whether and how an instruction stops is decided by the marks alone. -/
theorem exec_fault_of_same_marks {i : Instr} {s s' : State} (hm : ∀ x, s'.isWritten (.v x) = s.isWritten (.v x))
    {f : Fault} (h : exec i s = .fault f) : exec i s' = .fault f := by
  cases i with
  | ldImm x nn => cases h
  | addImm x nn =>
    rw [exec_addImm] at h ⊢
    rw [hm]
    split at h
    next => cases h
    next hx => rw [if_neg hx, h]
  | addReg x y =>
    rw [exec_addReg] at h ⊢
    rw [hm, hm]
    split at h
    next hx =>
      split at h
      next => cases h
      next hy => rw [if_pos hx, if_neg hy, h]
    next hx => rw [if_neg hx, h]
  | unimpl op => cases h

/-- Two states that fetch the same opcode and have the same registers set step alike: both complete, each with the
opcode's effect on itself, or both stop with the same fault. -/
theorem step_alike {s s' : State} (hfetch : fetch s' = fetch s)
    (hm : ∀ x, s'.isWritten (.v x) = s.isWritten (.v x)) :
    (∀ t, step s = .next t → ∃ i, s.OperandsWritten i ∧ t = s.advance.afterExec i ∧
      step s' = .next (s'.advance.afterExec i)) ∧
    ∀ f, step s = .fault f → step s' = .fault f := by
  refine ⟨fun t h => ?_, fun f h => ?_⟩
  · obtain ⟨op, hf, hw, rfl⟩ := step_next_cases h
    refine ⟨decode op, hw, rfl, step_completes_of_fetch (hfetch.trans hf) fun x hx => ?_⟩
    exact (hm x).trans (hw x hx)
  · cases hf : fetch s with
    | error g =>
      rw [step_of_fetch_error hf] at h
      rw [step_of_fetch_error (hfetch.trans hf), h]
    | ok op =>
      rw [step_of_fetch hf] at h
      rw [step_of_fetch (hfetch.trans hf)]
      refine exec_fault_of_same_marks (fun x => ?_) h
      rw [advance_isWritten, advance_isWritten, hm]

/-! No instruction reads `I`, memory or the record. -/

theorem afterExec_advance_setI (s : State) (w : Word) (i : Instr) :
    { s with i := w }.advance.afterExec i = { s.advance.afterExec i with i := w } := by
  cases i <;> rfl

theorem afterExec_advance_setMem (s : State) (m : Memory) (i : Instr) :
    { s with mem := m }.advance.afterExec i = { s.advance.afterExec i with mem := m } := by
  cases i <;> rfl

theorem sameButHistory_afterExec_advance_setHistory (s : State) (h : List Status) (i : Instr) :
    SameButHistory (s.advance.afterExec i) ({ s with history := h }.advance.afterExec i) := by
  cases i <;> exact ⟨rfl, rfl, rfl, rfl, rfl⟩

/-- Settles O41: neither the fetch nor any instruction reads `I`. -/
theorem stepIgnoresTheIndexRegister : Obligations.StepIgnoresTheIndexRegister := by
  unfold Obligations.StepIgnoresTheIndexRegister
  intro s w
  obtain ⟨hnext, hfault⟩ := step_alike (s := s) (s' := { s with i := w }) rfl (fun _ => rfl)
  refine ⟨fun t h => ?_, hfault⟩
  obtain ⟨i, -, rfl, hs'⟩ := hnext t h
  rw [hs', afterExec_advance_setI]

theorem fetch_congr {s s' : State} (hw : s'.isWritten .pc = s.isWritten .pc) (hpc : s'.pc = s.pc)
    (hhi : memRead s'.mem s.pc.toNat = memRead s.mem s.pc.toNat)
    (hlo : memRead s'.mem (s.pc.toNat + 1) = memRead s.mem (s.pc.toNat + 1)) : fetch s' = fetch s := by
  simp only [fetch, State.checked, hw, hpc]
  split
  next => rfl
  next pc h =>
    obtain rfl : s.pc = pc := by
      split at h
      next => exact Except.ok.inj h
      next => cases h
    rw [hhi, hlo]

/-- Settles O42: the fetch reads the two bytes, and no instruction reads any. -/
theorem stepReadsOnlyTheFetchedBytes : Obligations.StepReadsOnlyTheFetchedBytes := by
  unfold Obligations.StepReadsOnlyTheFetchedBytes
  intro s m hhi hlo
  have hfetch : fetch { s with mem := m } = fetch s := fetch_congr (isWritten_setMem s m .pc) rfl hhi hlo
  obtain ⟨hnext, hfault⟩ := step_alike hfetch (fun x => isWritten_setMem s m (.v x))
  refine ⟨fun t h => ?_, hfault⟩
  obtain ⟨i, -, rfl, hs'⟩ := hnext t h
  rw [hs', afterExec_advance_setMem]

/-- Settles O43: the record is written only. -/
theorem stepIgnoresTheRecord : Obligations.StepIgnoresTheRecord := by
  unfold Obligations.StepIgnoresTheRecord
  intro s h
  obtain ⟨hnext, hfault⟩ := step_alike (s := s) (s' := { s with history := h }) rfl (fun _ => rfl)
  refine ⟨fun t ht => ?_, hfault⟩
  obtain ⟨i, -, rfl, hs'⟩ := hnext t ht
  exact ⟨_, hs', sameButHistory_afterExec_advance_setHistory s h i⟩

/-! Agreement on the registers that have been set is kept by each operation a step is made of. -/

theorem agreeOnWritten_isWritten {s s' : State} (h : AgreeOnWritten s s') (r : Reg) :
    s'.isWritten r = s.isWritten r := by
  obtain ⟨hw, -⟩ := h
  cases r <;> simp only [State.isWritten, hw]

theorem agreeOnWritten_readV {s s' : State} (h : AgreeOnWritten s s') {x : RegIdx}
    (hx : s.isWritten (.v x) = true) : s'.readV x = s.readV x := by
  obtain ⟨-, -, -, hv, -⟩ := h
  exact hv x hx

theorem agreeOnWritten_report {s s' : State} (h : AgreeOnWritten s s') (st : Status) :
    AgreeOnWritten (s.report st) (s'.report st) := by
  obtain ⟨hw, hmem, hhist, hv, hi, hpc⟩ := h
  refine ⟨hw, hmem, ?_, hv, hi, hpc⟩
  rw [report_history, report_history, hhist]

theorem agreeOnWritten_advance {s s' : State} (h : AgreeOnWritten s s') : AgreeOnWritten s.advance s'.advance := by
  obtain ⟨hw, hmem, hhist, hv, hi, hpc⟩ := h
  refine ⟨hw, hmem, hhist, hv, hi, fun hp => ?_⟩
  rw [advance_pc, advance_pc, hpc hp]

theorem agreeOnWritten_writeV {s s' : State} (h : AgreeOnWritten s s') (x : RegIdx) (b : Byte) :
    AgreeOnWritten (s.writeV x b) (s'.writeV x b) := by
  obtain ⟨hw, hmem, hhist, hv, hi, hpc⟩ := h
  refine ⟨?marks, hmem, hhist, fun y hy => ?values, hi, hpc⟩
  case marks => simp only [State.writeV, hw]
  case values =>
    by_cases hyx : y = x
    · rw [hyx, readV_writeV_same, readV_writeV_same]
    · rw [readV_writeV_other _ _ hyx, readV_writeV_other _ _ hyx]
      exact hv y (by simpa [hyx] using hy)

theorem agreeOnWritten_afterExec {s s' : State} (h : AgreeOnWritten s s') {i : Instr} (hops : s.OperandsWritten i) :
    AgreeOnWritten (s.afterExec i) (s'.afterExec i) := by
  cases i with
  | ldImm x nn => exact agreeOnWritten_report (agreeOnWritten_writeV h x nn) _
  | addImm x nn =>
    rw [State.afterExec, State.afterExec, agreeOnWritten_readV h (operandsWritten_addImm.1 hops)]
    exact agreeOnWritten_report (agreeOnWritten_writeV h x _) _
  | addReg x y =>
    obtain ⟨hwx, hwy⟩ := operandsWritten_addReg.1 hops
    rw [State.afterExec, State.afterExec, agreeOnWritten_readV h hwx, agreeOnWritten_readV h hwy]
    exact agreeOnWritten_report (agreeOnWritten_writeV (agreeOnWritten_writeV h x _) vf _) _
  | unimpl op => exact agreeOnWritten_report h _

theorem agreeOnWritten_fetch {s s' : State} (h : AgreeOnWritten s s') : fetch s' = fetch s := by
  have hmark := agreeOnWritten_isWritten h .pc
  obtain ⟨-, hmem, -, -, -, hpc⟩ := h
  cases hw : s.isWritten .pc with
  | false => rw [fetch_unwritten hw, fetch_unwritten (hmark.trans hw)]
  | true => exact fetch_congr hmark (hpc hw) (by rw [hmem]) (by rw [hmem])

/-- Settles O50: every register a step reads has been set, so the two states give it the same value. -/
theorem stepIgnoresUnwrittenValues : Obligations.StepIgnoresUnwrittenValues := by
  unfold Obligations.StepIgnoresUnwrittenValues
  intro s s' h
  obtain ⟨hnext, hfault⟩ := step_alike (agreeOnWritten_fetch h) (fun x => agreeOnWritten_isWritten h (.v x))
  refine ⟨fun t ht => ?_, hfault⟩
  obtain ⟨i, hops, rfl, hs'⟩ := hnext t ht
  exact ⟨_, hs', agreeOnWritten_afterExec (agreeOnWritten_advance h) (operandsWritten_advance.2 hops)⟩

end Sys2Proof.Machine
end

section
/-! ### Runs of steps: straight-line execution and its end (R105, R108, C5) -/

namespace Sys2Proof.Machine

theorem step_of_allWritten {s : State} (h : s.AllWritten) (hpc : s.pc.toNat + 1 < Config.memSize) :
    ∃ op, fetch s = .ok op ∧ step s = .next (s.advance.afterExec (decode op)) := by
  obtain ⟨op, hf⟩ := fetch_of_canFetch ⟨written_all_iff.1 h .pc, hpc⟩
  exact ⟨op, hf, step_completes_of_fetch hf (operandsWritten_of_allWritten h _)⟩

theorem afterExec_advance_allWritten {s : State} (h : s.AllWritten) (i : Instr) :
    (s.advance.afterExec i).AllWritten :=
  written_all_iff.2 fun r => afterExec_isWritten ((advance_isWritten s r).trans (written_all_iff.1 h r)) i

/-- `ExecutionIsStraightLine` with the marks still set at the end, as its induction and the run past it need. -/
theorem run_straightLine (k : Nat) {s : State} (h : s.AllWritten) (hpc : s.pc.toNat + 2 * k ≤ Config.memSize) :
    ∃ t : State, Sys2Proof.core.run k s = .next t ∧ t.AllWritten ∧ t.pc.toNat = s.pc.toNat + 2 * k ∧ t.i = s.i ∧
      t.history.length = s.history.length + k ∧ t.mem = s.mem := by
  induction k generalizing s with
  | zero => exact ⟨s, run_zero s, h, rfl, rfl, rfl, rfl⟩
  | succ k ih =>
    obtain ⟨op, hf, hstep⟩ := step_of_allWritten h (by omega)
    have hpc' : (s.advance.afterExec (decode op)).pc.toNat = s.pc.toNat + 2 := step_next_pc_toNat hstep
    obtain ⟨t, hrun, hall, htpc, hti, hhist, hmem⟩ :=
      ih (afterExec_advance_allWritten h (decode op)) (by omega)
    refine ⟨t, (run_succ_of_next hstep k).trans hrun, hall, ?pc, ?index, ?record, ?memory⟩
    case pc => omega
    case index => rw [hti, afterExec_i, advance_i]
    case record =>
      rw [hhist, afterExec_history, advance_history, List.length_cons]
      omega
    case memory => rw [hmem, afterExec_mem, advance_mem]

/-- Settles O44, by induction over the steps. -/
theorem executionIsStraightLine : Obligations.ExecutionIsStraightLine := by
  unfold Obligations.ExecutionIsStraightLine
  intro k s h hpc
  obtain ⟨t, hrun, -, htpc, hti, hhist, hmem⟩ := run_straightLine k h hpc
  exact ⟨t, hrun, htpc, hti, hhist, fun a => by rw [hmem]⟩

/-- A run goes on from where a shorter one ends. -/
theorem run_add {m : Nat} {s t : State} (h : Sys2Proof.core.run m s = .next t) (n : Nat) :
    Sys2Proof.core.run (m + n) s = Sys2Proof.core.run n t := by
  induction m generalizing s with
  | zero =>
    cases h
    rw [Nat.zero_add]
  | succ m ih =>
    rw [Nat.succ_add]
    obtain ⟨op, -, -, hs⟩ | ⟨f, -, hs⟩ := step_cases s
    · rw [run_succ_of_next hs] at h ⊢
      exact ih h
    · rw [run_succ_of_fault hs] at h
      cases h

/-- Settles O45: 1,792 steps lead from 0x200 to 0x1000, the first `PC` outside memory. -/
theorem runFromTheEntryPointLeavesMemory : Obligations.RunFromTheEntryPointLeavesMemory := by
  unfold Obligations.RunFromTheEntryPointLeavesMemory
  intro s h hentry
  have hpc : s.pc.toNat = 512 := by rw [hentry]; rfl
  obtain ⟨t, hrun, hall, htpc, -⟩ := run_straightLine 1792 h (by rw [hpc]; decide)
  have hend : t.pc = 0x1000#16 := BitVec.eq_of_toNat_eq (by rw [htpc, hpc]; rfl)
  refine ⟨⟨t, hrun, hend⟩, fun n => ?_⟩
  obtain ⟨houtside, -⟩ := stepFailsExactlyOutsideMemory t (written_all_iff.1 hall .pc)
  have hfault := houtside (by rw [hend]; decide)
  rw [show 1793 + n = 1792 + (n + 1) by omega, run_add hrun, run_succ_of_fault hfault, hend]
  rfl

end Sys2Proof.Machine
end

section
/-! ### The host's sequences of steps: a failed fetch, a clean record, a policy (R145, R153, R169) -/

namespace Sys2Proof.Machine

theorem transact_step_of_failed_fetch {s : State} (hw : s.isWritten .pc = true)
    (h : Config.memSize ≤ s.pc.toNat + 1) :
    transact .step s =
      (s.report (.addressOutOfRange (firstOutside s.pc)), .status (.addressOutOfRange (firstOutside s.pc))) :=
  (transact_step_fault (step_of_fetch_error (fetch_out_of_range hw h))).trans (raise_of_status rfl s)

theorem fetch_ne_ok_of_outside {s : State} (h : Config.memSize ≤ s.pc.toNat + 1) (op : Word) :
    fetch s ≠ .ok op := fun hf => by
  obtain ⟨-, hpc, -⟩ := fetch_eq_ok_iff.1 hf
  omega

/-- Where no fetch succeeds, only a write of `PC` or `initializeCpu` moves `PC`. -/
theorem transact_pc_of_outside {q : Request} (hq : q.leavesPc = true) {s : State}
    (h : Config.memSize ≤ s.pc.toNat + 1) : (transact q s).1.pc = s.pc := by
  obtain ⟨f, -, ht⟩ | ⟨-, op, hf, -⟩ | hc := transact_cases q s
  · rw [ht, raise_pc]
  · exact absurd hf (fetch_ne_ok_of_outside h op)
  · exact hc.pc hq

theorem transactAll_pc_of_outside {qs : List Request} (hqs : ∀ q ∈ qs, q.leavesPc = true) {s : State}
    (h : Config.memSize ≤ s.pc.toNat + 1) : (transactAll qs s).pc = s.pc :=
  transactAll_keeps (P := fun t => t.pc = s.pc)
    (fun q hq _ ht => (transact_pc_of_outside (hqs q hq) (by rw [ht]; exact h)).trans ht) rfl

/-- A failed step leaves the state as it was but for the record, so the next one fails in the same way. -/
theorem sameButHistory_replicate_step {s : State} (hw : s.isWritten .pc = true)
    (h : Config.memSize ≤ s.pc.toNat + 1) (n : Nat) :
    SameButHistory s (transactAll (List.replicate n .step) s) := by
  refine transactAll_keeps (P := SameButHistory s) (fun q hq t ht => ?_) ⟨rfl, rfl, rfl, rfl, rfl⟩
  obtain rfl : q = .step := List.eq_of_mem_replicate hq
  obtain ⟨hv, hi, hpc, hmem, hwritten⟩ := ht
  have hwt : t.isWritten .pc = true := by
    rw [State.isWritten, hwritten]
    exact hw
  rw [transact_step_of_failed_fetch hwt (by rw [hpc]; exact h)]
  exact ⟨hv, hi, hpc, hmem, hwritten⟩

/-- Settles O46: `PC` stays where no fetch succeeds, and whatever sets it to where one does ends that. -/
theorem failedFetchRepeats : Obligations.FailedFetchRepeats := by
  unfold Obligations.FailedFetchRepeats
  intro s hw h
  refine ⟨⟨firstOutside s.pc, ?first, fun qs hqs => ?again⟩, sameButHistory_replicate_step hw h,
    fun qs w hall hpc => ?afterWritePC, fun qs => ?afterInitialize⟩
  case first => rw [transact_step_of_failed_fetch hw h]
  case again =>
    have hpc := transactAll_pc_of_outside hqs h
    rw [transact_step_of_failed_fetch (transactAll_isWritten hw qs) (by rw [hpc]; exact h), hpc]
    exact ⟨rfl, rfl, sameButHistory_report _ _⟩
  case afterWritePC =>
    obtain ⟨op, -, hs⟩ := step_of_allWritten (transact_allWritten (transactAll_allWritten hall qs) (.writePC w)) hpc
    exact ⟨_, hs⟩
  case afterInitialize =>
    obtain ⟨op, -, hs⟩ := step_of_allWritten (initializeCpu_written (transactAll qs s))
      (by rw [initializeCpu_pc]; decide)
    exact ⟨_, hs⟩

theorem clean_of_suffix {s t : State} (h : s.history <:+ t.history) (ht : t.Clean) : s.Clean :=
  fun st hst => ht st (h.subset hst)

/-- A step transaction that leaves the record clean ran an implemented instruction: any other outcome is a status that
reports a condition. -/
theorem step_of_clean {s : State} (h : s.AllWritten) (hclean : (transact .step s).1.Clean) :
    step s = .next (transact .step s).1 ∧ ∃ op, fetch s = .ok op ∧ decode op ≠ .unimpl op := by
  obtain hin | hout := Nat.lt_or_ge (s.pc.toNat + 1) Config.memSize
  · obtain ⟨op, hf, hs⟩ := step_of_allWritten h hin
    refine ⟨by rw [hs, transact_step_next hs], op, hf, fun hd => ?_⟩
    rw [transact_step_of_fetch_unimpl hf hd] at hclean
    have hunimpl := hclean (.unimplementedOpcode op) List.mem_cons_self
    cases hunimpl
  · rw [transact_step_of_failed_fetch (written_all_iff.1 h .pc) hout] at hclean
    have hfailed := hclean (.addressOutOfRange (firstOutside s.pc)) List.mem_cons_self
    cases hfailed

/-- Settles O47, by induction over the steps: the record at the end holds the record after each of them. -/
theorem cleanRunExecutedOnlyImplemented : Obligations.CleanRunExecutedOnlyImplemented := by
  unfold Obligations.CleanRunExecutedOnlyImplemented
  intro n s h hclean
  induction n generalizing s with
  | zero => exact ⟨run_zero s, fun k hk => absurd hk (Nat.not_lt_zero k)⟩
  | succ n ih =>
    have hfirst : (transact .step s).1.Clean := clean_of_suffix (history_suffix_transactAll _ _) hclean
    obtain ⟨hstep, himpl⟩ := step_of_clean h hfirst
    obtain ⟨hrun, hrest⟩ := ih (transact .step s).1 (transact_allWritten h .step) hclean
    refine ⟨(run_succ_of_next hstep n).trans hrun, fun k hk => ?_⟩
    cases k with
    | zero => exact himpl
    | succ k => exact hrest k (Nat.lt_of_succ_lt_succ hk)

/-- Settles O48, by induction over the bound: each step is a plain one, and the policy's answer to it decides whether
another follows. -/
theorem policyOnlyStopsTheRun : Obligations.PolicyOnlyStopsTheRun := by
  unfold Obligations.PolicyOnlyStopsTheRun
  intro policy k s
  induction k generalizing s with
  | zero => exact ⟨0, Nat.le_refl 0, rfl, fun m hm => absurd hm (Nat.not_lt_zero _), .inl rfl⟩
  | succ k ih =>
    cases hp : policy (transact .step s).2 with
    | stop =>
      refine ⟨1, Nat.succ_pos k, ?_, fun m hm => absurd hm (by omega), .inr ⟨0, rfl, hp⟩⟩
      simp only [hostRun, hp]
      rfl
    | goOn =>
      obtain ⟨j, hj, hrun, hgoOn, hend⟩ := ih (transact .step s).1
      refine ⟨j + 1, Nat.succ_le_succ hj, ?_, fun m hm => ?_, ?_⟩
      · simp only [hostRun, hp]
        exact hrun
      · cases m with
        | zero => exact hp
        | succ m => exact hgoOn m (Nat.lt_of_succ_lt_succ hm)
      · obtain rfl | ⟨m, rfl, hstop⟩ := hend
        · exact .inl rfl
        · exact .inr ⟨m + 1, rfl, hstop⟩

end Sys2Proof.Machine
end
